-- ==== Sys2Proof/Word.lean ====
section
/-!
DEFINITION. The word types of the XDC core: values, bytes, command and response words.
-/

namespace Sys2Proof

/-- A value: an opaque 64-bit pattern, never read as a number (00 R12). -/
abbrev Value := BitVec 64

/-- One byte of `IN` or `OUT` (20 R57, R60). -/
abbrev Byte := BitVec 8

/-- A host command word, OP in bits 67..64 and ARG in bits 63..0 (30 R97). -/
abbrev CommandWord := BitVec 68

/-- A response word, ST in bits 67..64 and DATA in bits 63..0 (30 R98). -/
abbrev ResponseWord := BitVec 68

end Sys2Proof
end

