-- ==== Sys2Proof/Syntax.lean ====
section
/-!
DEFINITION. The syntax of both encoding spaces of the XDC core (30_encoding.md): the host commands and the
wire-format records, one constructor of `Instr` per row of the opcode table.
-/

namespace Sys2Proof

/-- A member of `BIN_SET`, the eight leading-zero thresholds (00 R7, 41 R142). A number outside the set cannot be
written (93 I18). -/
inductive Bin where
  | b0 | b8 | b12 | b16 | b18 | b20 | b22 | b24
deriving DecidableEq, Repr

/-- The codes of the job faults (60 R263). -/
inductive FaultCode where
  | readOob       -- a bit past the loaded input is needed (60 R264)
  | badDistance   -- a back-reference before index 0 (60 R265)
  | badLength     -- bin plus length exceeds 64 (60 R266)
  | noPrevBin     -- PrevSameBin with no previous bin (60 R267)
deriving DecidableEq, Repr

/-- A wire-format record (30 R82 to R86), as the decoder fetches it and the encoder emits it. `dist` is the 7-bit
distance field `D` (30 R88), `len` the 6-bit field `L` (30 R90), `bin` the bin its code `B` names (30 R89); the payload
fields `P` and `X` are held as numbers (30 R104). -/
inductive Record where
  | verbatim (value : Value)
  | exactMatch (dist : BitVec 7)
  | backRefPayload (dist : BitVec 7) (bin : Bin) (len : BitVec 6) (payload : Value)
  | prevSameBin (payload : Value)
  | prevNewBin (bin : Bin) (payload : Value)
deriving DecidableEq, Repr

/-- The instructions: the host commands of 30 R99 (the reserved opcodes among them, 45 R243), then the five record
kinds, which the spec says are to the decoder what instructions are to a processor (30, opening; 00 R2). -/
inductive Instr where
  | nop
  | encStart
  | encPush (value : Value)
  | encFinish
  | decStart (count : BitVec 64)
  | decFeed (byte : Byte)
  | decPull
  | decEnd
  | readCsr (number : BitVec 64)
  | softReset
  | reserved (op : BitVec 4)
  | verbatim (value : Value)
  | exactMatch (dist : BitVec 7)
  | backRefPayload (dist : BitVec 7) (bin : Bin) (len : BitVec 6) (payload : Value)
  | prevSameBin (payload : Value)
  | prevNewBin (bin : Bin) (payload : Value)
deriving DecidableEq, Repr

/-- A record as an instruction. -/
def Record.toInstr : Record → Instr
  | .verbatim v => .verbatim v
  | .exactMatch d => .exactMatch d
  | .backRefPayload d b l p => .backRefPayload d b l p
  | .prevSameBin x => .prevSameBin x
  | .prevNewBin b x => .prevNewBin b x

/-- The record an instruction is, if it is one; the host commands are none. -/
def Instr.toRecord? : Instr → Option Record
  | .nop | .encStart | .encPush _ | .encFinish | .decStart _ | .decFeed _ | .decPull | .decEnd
  | .readCsr _ | .softReset | .reserved _ => none
  | .verbatim v => some (.verbatim v)
  | .exactMatch d => some (.exactMatch d)
  | .backRefPayload d b l p => some (.backRefPayload d b l p)
  | .prevSameBin x => some (.prevSameBin x)
  | .prevNewBin b x => some (.prevNewBin b x)

end Sys2Proof
end

