-- ==== Sys2Proof/Machine/Operands.lean ====
section
/-!
DEFINITION. The operand forms and pure computations of the XDC core: the zero-run binning classifier (41_binning.md),
the hashOf (42 R160), the distance coding (30 R88) and the bit-field helpers.
-/

namespace Sys2Proof.Machine

/-- `count_leading(x)` (41 R140): the number of zero bits above the highest set bit, 64 for 0. -/
def countLeading (x : Value) : Nat :=
  ((List.range 64).find? fun k => x.getMsbD k).getD 64

/-- `count_trailing(x)` (41 R141): the index of the lowest set bit, 64 for 0. -/
def countTrailing (x : Value) : Nat :=
  ((List.range 64).find? fun k => x.getLsbD k).getD 64

/-- The number a bin stands for (00 R7 `BIN_SET`). -/
def binValue : Bin → Nat
  | .b0 => 0
  | .b8 => 8
  | .b12 => 12
  | .b16 => 16
  | .b18 => 18
  | .b20 => 20
  | .b22 => 22
  | .b24 => 24

/-- `bin_of(c)` (41 R142, the table of R146): the greatest threshold that is at most `c`, so that the `64 - b` bits left
hold the xor (the rounding-down law, 41 R145), and every bin is its own (41 R147). -/
def binOf (c : Nat) : Bin :=
  if 24 ≤ c then .b24
  else if 22 ≤ c then .b22
  else if 20 ≤ c then .b20
  else if 18 ≤ c then .b18
  else if 16 ≤ c then .b16
  else if 12 ≤ c then .b12
  else if 8 ≤ c then .b8
  else .b0

/-- The bits an xor wastes by rounding its leading count down (41 R145): `count_leading(x) - b`, for the bin `b` of that
count. -/
def wastedBits (x : Value) : Nat := countLeading x - binValue (binOf (countLeading x))

/-- `encode_bin(b)` (41 R143): the place of `b` in the ascending list. -/
def encodeBin : Bin → BitVec 3
  | .b0 => 0
  | .b8 => 1
  | .b12 => 2
  | .b16 => 3
  | .b18 => 4
  | .b20 => 5
  | .b22 => 6
  | .b24 => 7

/-- `decode_bin(k)` (41 R144), the inverse of `encodeBin` both ways (41 R147). -/
def decodeBin (k : BitVec 3) : Bin :=
  match k.toNat with
  | 0 => .b0
  | 1 => .b8
  | 2 => .b12
  | 3 => .b16
  | 4 => .b18
  | 5 => .b20
  | 6 => .b22
  | _ => .b24

/-- `hash(v) = v[13:0]` (42 R160), as the lookup table's address. -/
def hashOf (v : Value) : Nat := (v.extractLsb' 0 14).toNat

/-- The slot of absolute index `j` (20 R51). -/
def slotOf (j : Nat) : Nat := j % 128

/-- The distance field the encoder writes, `(i - j) mod 128` in 7 bits (30 R88). -/
def distanceField (d : Nat) : BitVec 7 := BitVec.ofNat 7 (d % 128)

/-- The distance the decoder forms from the field: 0 stands for 128 (30 R88). -/
def distanceOf (dist : BitVec 7) : Nat := if dist = 0 then 128 else dist.toNat

/-- The low `n` bits of a word, the rest 0: a field of `n` bits as a number (00 R9, 40 R121). -/
def lowBits (n : Nat) (x : Value) : Value := (x.truncate n).zeroExtend 64

/-- The bits of a field of width `n` in stream order, most significant first (20 R56). -/
def fieldBits : Nat → Value → List Bool
  | 0, _ => []
  | n + 1, x => x.getLsbD n :: fieldBits n x

/-- The bits of a byte in stream order, bit 7 first (20 R55). -/
def byteBits (b : Byte) : List Bool := fieldBits 8 (b.zeroExtend 64)

/-- One bit as a 64-bit number. -/
def bitValue (b : Bool) : Value := if b then 1 else 0

end Sys2Proof.Machine
end

