-- ==== Sys2Proof/WellFormed.lean ====
section
/-!
DEFINITION. Which instruction terms have an encoding: fields that fit their widths, reserved opcodes in their range,
and for a record the decoder context it can stand in.
-/

namespace Sys2Proof

/-- A number fits a field of `n` bits. -/
def fitsBits (n : Nat) (x : Value) : Bool := decide (x.toNat < 2 ^ n)

/-- A record's fields fit their widths: the payload `P` its `L` bits (30 R84), the payload `X` its `64 - b` bits
(30 R86). PrevSameBin takes its width from `PB`, see `Record.fitsContext`. -/
def Record.wf : Record → Bool
  | .verbatim _ => true
  | .exactMatch _ => true
  | .backRefPayload _ _ len p => fitsBits len.toNat p
  | .prevSameBin _ => true
  | .prevNewBin b x => fitsBits (64 - Machine.binValue b) x

/-- An instruction term is one the encodings can write: a reserved opcode is 0xA to 0xF (30 R99), a record's fields
fit. Every other operand of a command takes every value of its type. -/
def Instr.wf : Instr → Bool
  | .nop | .encStart | .encPush _ | .encFinish | .decStart _ | .decFeed _ | .decPull | .decEnd
  | .readCsr _ | .softReset => true
  | .reserved op => decide (10 ≤ op.toNat)
  | .verbatim v => (Record.verbatim v).wf
  | .exactMatch d => (Record.exactMatch d).wf
  | .backRefPayload d b l p => (Record.backRefPayload d b l p).wf
  | .prevSameBin x => (Record.prevSameBin x).wf
  | .prevNewBin b x => (Record.prevNewBin b x).wf

/-- The record can stand at value index `index` with running bin `pb` and is not malformed: Verbatim at index 0 only
and nothing else there (30 R81, R82), its distance within the values seen, its bin and length within 64, its
PrevSameBin payload within `64 - PB` bits of a `PB` that exists (30 R94). -/
def Record.fitsContext (index : Nat) (pb : Option Bin) : Record → Bool
  | .verbatim _ => index == 0
  | .exactMatch d => decide (1 ≤ index) && decide (Machine.distanceOf d ≤ index)
  | .backRefPayload d b len _ =>
      decide (1 ≤ index) && decide (Machine.distanceOf d ≤ index) &&
        decide (Machine.binValue b + len.toNat ≤ 64)
  | .prevSameBin x =>
      decide (1 ≤ index) &&
        match pb with
        | none => false
        | some b => fitsBits (64 - Machine.binValue b) x
  | .prevNewBin _ _ => decide (1 ≤ index)

end Sys2Proof
end

