-- ==== Sys2Proof/Decode.lean ====
section
/-!
DEFINITION. Decoding and encoding of both encoding spaces (30_encoding.md): the 68-bit command words, total on every
word, and the bit-aligned records, read bit by bit in the order of 44 R213 to R220 and rejected by name.
-/

namespace Sys2Proof

open Sys2Proof.Machine

/-! ## Host commands -/

/-- The command a word stands for (30 R97, R99, R101): `OP` alone selects it, the `ARG` bits a command ignores are
dropped (30 R100), and every opcode above 9 is reserved (45 R243). Total: no word is without meaning. -/
def decodeCommand (w : CommandWord) : Instr :=
  let arg : BitVec 64 := w.extractLsb' 0 64
  match (w.extractLsb' 64 4).toNat with
  | 0 => .nop
  | 1 => .encStart
  | 2 => .encPush arg
  | 3 => .encFinish
  | 4 => .decStart arg
  | 5 => .decFeed (arg.extractLsb' 0 8)
  | 6 => .decPull
  | 7 => .decEnd
  | 8 => .readCsr arg
  | 9 => .softReset
  | _ => .reserved (w.extractLsb' 64 4)

/-! ## Records -/

/-- Why the reading of a record stops. A violation is the core's own job fault (60 R263); an absent byte or slot is
a stuck state of the model, reached from no state of the invariant (10 R38, 93 I7, I8). -/
inductive ReadStop where
  | violation (code : FaultCode)
  | absentByte (address : Nat)
  | absentSlot (slot : Nat)
deriving DecidableEq, Repr

/-- A source of stream bits by position (40 R124): `read_bit` at each position, or why it stops there. -/
abbrev BitSource := Nat → Except ReadStop Bool

/-- `read_bits(width)` from position `pos` (40 R125): `r <- (r << 1) | read_bit()`, `width` times, starting from
`acc`; the number read and the position after it. -/
def readBits (src : BitSource) : (width pos : Nat) → (acc : Value) → Except ReadStop (Value × Nat)
  | 0, pos, acc => .ok (acc, pos)
  | n + 1, pos, acc => do
      let bit ← src pos
      readBits src n (pos + 1) ((acc <<< 1) ||| bitValue bit)

/-- Verbatim at index 0 (44 R213, 40 R126). -/
def decodeVerbatim (src : BitSource) (pos : Nat) : Except ReadStop (Record × Nat) := do
  let (v, pos) ← readBits src 64 pos 0
  return (.verbatim v, pos)

/-- The rest of a BackRefPayload, after its second control bit (44 R217): the length check comes before the
payload. -/
def decodeBackRefPayload (src : BitSource) (dist : BitVec 7) (pos : Nat) :
    Except ReadStop (Record × Nat) := do
  let (code, pos) ← readBits src 3 pos 0
  let bin := decodeBin (code.truncate 3)
  let (len, pos) ← readBits src 6 pos 0
  if binValue bin + len.toNat > 64 then
    .error (.violation .badLength)
  else do
    let (payload, pos) ← readBits src len.toNat pos 0
    return (.backRefPayload dist bin (len.truncate 6) payload, pos)

/-- The back-reference branch, after its first control bit (44 R215): the distance check comes before the second
control bit. -/
def decodeBackRef (src : BitSource) (index : Nat) (pos : Nat) : Except ReadStop (Record × Nat) := do
  let (field, pos) ← readBits src 7 pos 0
  let dist : BitVec 7 := field.truncate 7
  if distanceOf dist > index then
    .error (.violation .badDistance)
  else do
    let c2 ← src pos
    if c2 then decodeBackRefPayload src dist (pos + 1) else return (.exactMatch dist, pos + 1)

/-- The previous-value branch, after its first control bit (44 R218 to R220): the check of `PB` comes before the
payload. -/
def decodePrev (src : BitSource) (pb : Option Bin) (pos : Nat) : Except ReadStop (Record × Nat) := do
  let c2 ← src pos
  if c2 then do
    let (code, pos) ← readBits src 3 (pos + 1) 0
    let bin := decodeBin (code.truncate 3)
    let (x, pos) ← readBits src (64 - binValue bin) pos 0
    return (.prevNewBin bin x, pos)
  else
    match pb with
    | none => .error (.violation .noPrevBin)
    | some b => do
      let (x, pos) ← readBits src (64 - binValue b) (pos + 1) 0
      return (.prevSameBin x, pos)

/-- The record at position `pos`, at value index `index` and with running bin `pb` (44 R213 to R220, the decode tree
of 30 R87), and the position after it. Total on any bits: it answers a record or the reason it stops, in stream order
(60 R268). -/
def decodeRecord (src : BitSource) (index : Nat) (pb : Option Bin) (pos : Nat) :
    Except ReadStop (Record × Nat) :=
  if index = 0 then
    decodeVerbatim src pos
  else do
    let c1 ← src pos
    if c1 then decodePrev src pb (pos + 1) else decodeBackRef src index (pos + 1)

/-! ## Encoding -/

/-- The command word of a command, its ignored bits 0 (30 R97, R99, R103); a record has none. -/
def encodeCommand : Instr → Option CommandWord
  | .nop => some (0x0#4 ++ 0#64)
  | .encStart => some (0x1#4 ++ 0#64)
  | .encPush v => some (0x2#4 ++ v)
  | .encFinish => some (0x3#4 ++ 0#64)
  | .decStart n => some (0x4#4 ++ n)
  | .decFeed b => some (0x5#4 ++ (0#56 ++ b))
  | .decPull => some (0x6#4 ++ 0#64)
  | .decEnd => some (0x7#4 ++ 0#64)
  | .readCsr n => some (0x8#4 ++ n)
  | .softReset => some (0x9#4 ++ 0#64)
  | .reserved op => some (op ++ 0#64)
  | .verbatim _ | .exactMatch _ | .backRefPayload _ _ _ _ | .prevSameBin _ | .prevNewBin _ _ => none

/-- The payload width of a PrevSameBin under the running bin (30 R85). With no running bin the record does not exist
and no payload is written. -/
def sameBinWidth : Option Bin → Nat
  | none => 0
  | some b => 64 - binValue b

/-- The bits of a record in stream order under the running bin `pb` (30 R82 to R86). -/
def encodeRecord (pb : Option Bin) : Record → List Bool
  | .verbatim v => fieldBits 64 v
  | .exactMatch d => [false] ++ fieldBits 7 (d.zeroExtend 64) ++ [false]
  | .backRefPayload d b len p =>
      [false] ++ fieldBits 7 (d.zeroExtend 64) ++ [true] ++ fieldBits 3 ((encodeBin b).zeroExtend 64) ++
        fieldBits 6 (len.zeroExtend 64) ++ fieldBits len.toNat p
  | .prevSameBin x => [true, false] ++ fieldBits (sameBinWidth pb) x
  | .prevNewBin b x =>
      [true, true] ++ fieldBits 3 ((encodeBin b).zeroExtend 64) ++ fieldBits (64 - binValue b) x

/-- The length of a record in bits (30 R87). -/
def recordLength (pb : Option Bin) : Record → Nat
  | .verbatim _ => 64
  | .exactMatch _ => 9
  | .backRefPayload _ _ len _ => 18 + len.toNat
  | .prevSameBin _ => 2 + sameBinWidth pb
  | .prevNewBin b _ => 5 + (64 - binValue b)

/-- The bits of a command word, `OP` first, most significant first (30 R97). -/
def commandBits (w : CommandWord) : List Bool :=
  fieldBits 4 ((w.extractLsb' 64 4).zeroExtend 64) ++ fieldBits 64 (w.extractLsb' 0 64)

/-- The bits of an instruction: a command's 68-bit word, a record's stream bits under the running bin. -/
def encode (pb : Option Bin) (i : Instr) : List Bool :=
  match i.toRecord?, encodeCommand i with
  | some r, _ => encodeRecord pb r
  | none, some w => commandBits w
  | none, none => []

/-! ## The opcode table's numbering -/

/-- The stream bits of a record row of the opcode table: the table numbers the first nine, the first of them bit 8;
those after are 0 (opcode_table.json, the rows' note; log 3). -/
def tableRecordBit (w : Nat) (p : Nat) : Bool := decide (p < 9) && w.testBit (8 - p)

/-- The stream bits of the Verbatim row: 64, the first of them bit 63 (30 R82). -/
def tableVerbatimBit (w : Nat) (p : Nat) : Bool := decide (p < 64) && w.testBit (63 - p)

/-- The value index and running bin at which a record row of the table is decoded: every distance reaches a value,
and the PrevSameBin payload is at its widest (log 3). -/
def tableIndex : Nat := 128

/-- See `tableIndex`. -/
def tableBin : Bin := .b0

/-- The instruction the decoder reads from a row's bits as the opcode table numbers them (log 3): more than 64 bits is
a command word, 64 bits is a Verbatim value (the decoder selects it by `INDEX`, not by bits), 9 to 63 bits are a
record's first nine stream bits. -/
def decodeTableWord (nbits w : Nat) : Option Instr :=
  if nbits > 64 then
    if w < 2 ^ 68 then some (decodeCommand (BitVec.ofNat 68 w)) else none
  else if nbits = 64 then
    match decodeRecord (fun p => .ok (tableVerbatimBit w p)) 0 none 0 with
    | .ok (r, _) => some r.toInstr
    | .error _ => none
  else if 9 ≤ nbits then
    match decodeRecord (fun p => .ok (tableRecordBit w p)) tableIndex (some tableBin) 0 with
    | .ok (r, _) => some r.toInstr
    | .error _ => none
  else none

end Sys2Proof
end

