-- ==== Sys2Proof/Config.lean ====
section
/-!
DEFINITION. What an implementation fixes when the core is built (00 R8, 10 R31), and the one free choice the spec
leaves open (42 R163).
-/

namespace Sys2Proof

/-- The tie-break of the selector's scan (00 R8, 42 R163). -/
inductive ScanTie where
  | nearest
  | any
deriving DecidableEq, Repr

/-- The build parameters (00 R8, 10 R31). They are carried in the state, so that a statement about every state is a
statement about every build (log 4). -/
structure Config where
  brThreshold : BitVec 6    -- BR_THRESHOLD, 0..63
  idxW        : Nat         -- IDX_W, at least 8
  inCap       : Nat         -- IN_CAP in bytes, at least 8
  scanTie     : ScanTie     -- SCAN_TIE
deriving DecidableEq, Repr

/-- The legal builds (00 R8). DEDUCED (log 5): CSR 1 holds `zext_64(INDEX)`, so `IDX_W` is at most 64, and the 64-bit
`RD_POS` can name every bit position of a full `IN`, so `8 * IN_CAP` is below `2^64`. -/
abbrev Config.wf (c : Config) : Prop :=
  8 ≤ c.idxW ∧ c.idxW ≤ 64 ∧ 8 ≤ c.inCap ∧ 8 * c.inCap < 2 ^ 64

/-- The build `State.reset` has: the spec's own values (00 R8), and for the OPEN `IN_CAP` the value of vector K12.
DESIGN CHOICE, unsafe (log 4). -/
def Config.standard : Config :=
  { brThreshold := 13, idxW := 64, inCap := 2 ^ 20, scanTie := .nearest }

/-- The free choice of `SCAN_TIE = ANY` (42 R163): the `n`-th scan takes the maximiser at this place, counted round
the list of all maximisers. No body: no proof can see its value (log 11). -/
opaque Config.anyPick : Nat → Nat

end Sys2Proof
end

