-- ==== Sys2Proof/Machine/State.lean ====
section
/-!
DEFINITION. The state of the XDC core (10_state.md), its interface streams, the model's stops, and the reset state.
-/

namespace Sys2Proof.Machine

/-- `MODE` (10 R22). Values 5 to 7 are never held and cannot be written (93 I15). -/
inductive Mode where
  | idle
  | enc
  | decLoad
  | decRun
  | fault
deriving DecidableEq, Repr

/-- The status of a response (30 R102): `OK`, the six rejects, and a fault with its code. -/
inductive Status where
  | ok
  | illegalOp
  | wrongMode
  | countExhausted
  | ibufFull
  | indexFull
  | badCsr
  | fault (code : FaultCode)
deriving DecidableEq, Repr

/-- What the outside world does to the core (30 R97, 70 R290, log 2). -/
inductive HostEvent where
  | command (word : CommandWord)    -- the host issues a command word
  | externalReset                   -- power-on or an external reset (70 R290)
deriving DecidableEq, Repr

/-- Storage addressed by a number, as the list of its populated cells in ascending address order; an unlisted cell is
unpopulated (10 R32, R33, 70 R292). -/
abbrev Table (α : Type) := List (Nat × α)

/-- Byte storage: address and byte pairs, the host's own cells. An unlisted address has no value. -/
abbrev Memory := List Host.Cell

/-- The form of a table: addresses strictly rising. No entry equals what an unlisted address reads as, since an
unlisted address reads as no value at all. -/
abbrev Table.wf {α : Type} (t : Table α) : Prop := t.Pairwise fun p q => p.1 < q.1

/-- The canonical form of byte storage, see `Table.wf`. -/
abbrev Memory.wf (m : Memory) : Prop := Table.wf m

/-- Why the model stops with a fault. The core's own faults (60 R263) are next states, not these: these are the states
the spec calls `stuck`, reached from no state of the invariant. -/
inductive Fault where
  /-- A ring slot with `RV = 0` would be read (10 R38 (d), 93 I7). Raised by ENC_PUSH and DEC_PULL through `ringAt`.
  Safe: the model stops. -/
  | unpopulatedSlot
  /-- A byte of `IN` below `IN_LEN` that was never fed would be read (20 R52, 93 I8). Raised by DEC_PULL through
  `inputBit`. Safe: the model stops. -/
  | unwrittenInput
  /-- A lookup entry that is not below `INDEX` would be subtracted from it (42 R161: `i - LI[h] >= 1` always holds; 00
  R11: every use of subtraction guarantees `a >= b`). Raised by ENC_PUSH through `select`. Safe: the model stops. -/
  | lookupAhead
deriving DecidableEq, Repr

/-- Why the model gives an instruction no meaning. -/
inductive Refusal where
  /-- The instruction has no meaning in this model yet. Raised by an arm of `exec` only. Safe. -/
  | notModelled (mnemonic : String)
  /-- A record at a value index where the decoder cannot fetch it: Verbatim at `INDEX >= 1`, another record at
  `INDEX = 0` (30 R81, R82; 44 R213, R214). Raised by the five record meanings, never by `step`. Safe (log 9). -/
  | recordOutOfPlace
deriving DecidableEq, Repr

/-- The state: the registers of 10 R22 to R31, the arrays of 10 R32 and R33, the byte storage of 20 R52 and R53, the two
interface streams, and the model's own free-choice counter. Plain data. -/
structure State where
  mode      : Mode                -- MODE (10 R22)
  index     : Nat                 -- INDEX (10 R23), below 2^IDX_W (log 6)
  remaining : BitVec 64           -- REMAINING (10 R24)
  pb        : Option Bin          -- PB (10 R25)
  wpart     : BitVec 8            -- WPART (10 R26)
  wfill     : BitVec 3            -- WFILL (10 R26)
  out       : List Byte           -- OUT, in the order appended (20 R53)
  outLen    : BitVec 64           -- OUT_LEN (10 R27)
  inMem     : Memory              -- IN (20 R52)
  inLen     : Nat                 -- IN_LEN (10 R29)
  rdPos     : BitVec 64           -- RD_POS (10 R28)
  cause     : Option FaultCode    -- CAUSE (10 R30); none is 0
  ring      : Table Value         -- RV and RD (10 R32): a listed slot has RV = 1
  lut       : Table Nat           -- LV and LI (10 R33): a listed entry has LV = 1
  config    : Config              -- CONFIG and SCAN_TIE (10 R31, 00 R8)
  port      : List HostEvent      -- what the host still issues, next first (log 2)
  rsps      : List ResponseWord   -- the responses delivered, oldest first (45 R245, log 2)
  pick      : Nat                 -- the model's own: counts the free choices of SCAN_TIE = ANY (log 11)
deriving DecidableEq, Repr

/-- The machine right after power-on reset (10 R39, 70 R290), for the standard build (log 4), with nothing issued and
nothing answered (log 2). -/
def State.reset : State :=
  { mode := .idle, index := 0, remaining := 0, pb := none, wpart := 0, wfill := 0, out := [], outLen := 0,
    inMem := [], inLen := 0, rdPos := 0, cause := none, ring := [], lut := [],
    config := Config.standard, port := [], rsps := [], pick := 0 }

end Sys2Proof.Machine
end

