-- ==== Sys2Proof/Machine/Flags.lean ====
section
/-!
DEFINITION. The flags and the read-only register views: `PB` and its update table (43 R189), the codes of `MODE`,
`CAUSE` and the statuses, and the CSRs (10 R35, R36).
-/

namespace Sys2Proof.Machine

/-- `PB` after a record (43 R189; the decoder's rules 44 R216, R217, R219, R220 are the same table). -/
def pbAfter (pb : Option Bin) : Record → Option Bin
  | .verbatim _ => pb
  | .exactMatch _ => pb
  | .backRefPayload _ b _ _ => some b
  | .prevSameBin _ => pb
  | .prevNewBin b _ => some b

/-- The stored bit `PB_VALID` (10 R25). -/
def pbValid (s : State) : BitVec 1 := if s.pb.isSome then 1 else 0

/-- The stored field `PB_CODE` (10 R25): the bin's code, 0 when there is none. -/
def pbCode (s : State) : BitVec 3 :=
  match s.pb with
  | none => 0
  | some b => encodeBin b

/-- The value of `MODE` (10 R22). -/
def modeCode : Mode → BitVec 3
  | .idle => 0
  | .enc => 1
  | .decLoad => 2
  | .decRun => 3
  | .fault => 4

/-- A fault's code (60 R263). -/
def faultCode : FaultCode → BitVec 4
  | .readOob => 8
  | .badDistance => 9
  | .badLength => 10
  | .noPrevBin => 11

/-- The value of `CAUSE` (10 R30). -/
def causeCode : Option FaultCode → BitVec 4
  | none => 0
  | some c => faultCode c

/-- The status code `ST` (30 R102). -/
def statusCode : Status → BitVec 4
  | .ok => 0
  | .illegalOp => 1
  | .wrongMode => 2
  | .countExhausted => 3
  | .ibufFull => 4
  | .indexFull => 5
  | .badCsr => 6
  | .fault c => faultCode c

/-- The response word `ST, DATA` (30 R98). -/
def responseWord (st : Status) (data : BitVec 64) : ResponseWord := statusCode st ++ data

/-- CSR 0, `STATUS` (10 R36), its fields from bit 63 down. -/
def statusWord (s : State) : BitVec 64 :=
  0#40 ++ s.wpart ++ 0#1 ++ s.wfill ++ causeCode s.cause ++ 0#1 ++ pbCode s ++ pbValid s ++ modeCode s.mode

/-- CSR 6, `CONFIG` (10 R36): `IN_CAP` saturates at `2^48 - 1`. -/
def configWord (c : Config) : BitVec 64 :=
  BitVec.ofNat 48 (min c.inCap (2 ^ 48 - 1)) ++ BitVec.ofNat 8 c.idxW ++ 0#2 ++ c.brThreshold

/-- `CSR[n]` (10 R35); none for a number that is not implemented. -/
def csr (n : BitVec 64) (s : State) : Option (BitVec 64) :=
  match n.toNat with
  | 0 => some (statusWord s)
  | 1 => some (BitVec.ofNat 64 s.index)
  | 2 => some s.remaining
  | 3 => some s.outLen
  | 4 => some (BitVec.ofNat 64 s.inLen)
  | 5 => some s.rdPos
  | 6 => some (configWord s.config)
  | _ => none

end Sys2Proof.Machine
end

