-- ==== Sys2Proof/Machine/Ops.lean ====
section
/-!
DEFINITION. The named operations over storage and registers that the meanings share: table reads and writes, responses
and rejects, fault entry, job start and reset, the bit cursor (40_bitcursor.md) and the selector's `update` (42 R165).
-/

namespace Sys2Proof.Machine

/-- An outcome of this machine. -/
abbrev Result := Host.Outcome State Fault Refusal

/-! ## Storage -/

/-- The cell at an address, none when it is unpopulated. -/
def Table.read {α : Type} : Table α → Nat → Option α
  | [], _ => none
  | (k, v) :: rest, a => if a = k then some v else Table.read rest a

/-- Populate the cell at an address, overwriting any prior occupant (20 R51). -/
def Table.write {α : Type} : Table α → Nat → α → Table α
  | [], a, v => [(a, v)]
  | (k, w) :: rest, a, v =>
      if a < k then (a, v) :: (k, w) :: rest
      else if a = k then (a, v) :: rest
      else (k, w) :: Table.write rest a v

/-- `RD[k]` of a populated slot (20 R51); a read of an unpopulated slot is stuck (93 I7). -/
def ringAt (ring : Table Value) (slot : Nat) : Except Fault Value :=
  match Table.read ring slot with
  | some v => .ok v
  | none => .error .unpopulatedSlot

/-- `update(v, i)` (42 R165): the slot `i mod 128` and the entry of the value's hash, unconditionally. -/
def update (v : Value) (i : Nat) (s : State) : State :=
  { s with ring := Table.write s.ring (slotOf i) v, lut := Table.write s.lut (hashOf v) i }

/-! ## Responses, rejects and faults -/

/-- Deliver the one response of a command (30 R98, 45 R245). -/
def respond (st : Status) (data : BitVec 64) (s : State) : State :=
  { s with rsps := s.rsps ++ [responseWord st data] }

/-- `return d` (00 R11): the command ends with `OK`. -/
abbrev respondOk (data : BitVec 64) (s : State) : State := respond .ok data s

/-- `reject(code)` (60 R261): nothing changes but that the response is delivered, with data 0. -/
abbrev reject (st : Status) (s : State) : State := respond st 0 s

/-- Fault entry (60 R262), from the state before the command, whose effects are discarded: `CAUSE <- code`,
`MODE <- FAULT`, and the response carries the code with data 0. Nothing else is saved; there is no vector. -/
def enterFault (code : FaultCode) (s : State) : State :=
  respond (.fault code) 0 { s with mode := .fault, cause := some code }

/-! ## Leaving a job: the only ways out of `FAULT` (60 R270) -/

/-- The clear of job start (10 R40, 70 R291): every element of 10 R39 but `MODE` and `REMAINING` takes its reset
value. -/
def clearJob (s : State) : State :=
  { s with
    index := 0, pb := none, wpart := 0, wfill := 0, out := [], outLen := 0, inMem := [], inLen := 0,
    rdPos := 0, cause := none, ring := [], lut := [] }

/-- Reset (10 R39, 70 R290): job start's clear, and `MODE` and `REMAINING` too. The build and the interface streams
are untouched. -/
def resetCore (s : State) : State := { clearJob s with mode := .idle, remaining := 0 }

/-- `INDEX` is at its last value, `2^IDX_W - 1` (92 D18). -/
def indexFull (s : State) : Bool := s.index == 2 ^ s.config.idxW - 1

/-! ## The bitstream writer -/

/-- The word with bit `k` set to `b`. -/
def setBit (w : BitVec 8) (k : Nat) (b : Bool) : BitVec 8 :=
  (w &&& ~~~((1 : BitVec 8) <<< k)) ||| ((if b then (1 : BitVec 8) else 0) <<< k)

/-- `MemWrite(OUT_LEN, 1, b)` (20 R53): append a byte to `OUT` and count it (OUT_LEN past `2^64 - 1`: log 7). -/
def appendByte (b : Byte) (s : State) : State :=
  { s with out := s.out ++ [b], outLen := s.outLen + 1 }

/-- `put_bit(b)` (40 R120): into the next unfilled position, most significant first; the eighth bit flushes. -/
def putBit (b : Bool) (s : State) : State :=
  let part := setBit s.wpart (7 - s.wfill.toNat) b
  if s.wfill = 7 then
    { appendByte part s with wpart := 0, wfill := 0 }
  else
    { s with wpart := part, wfill := s.wfill + 1 }

/-- `put_bits(value, width)` (40 R121): bits `width-1` down to 0. -/
def putBits (x : Value) : (width : Nat) → State → State
  | 0, s => s
  | n + 1, s => putBits x n (putBit (x.getLsbD n) s)

/-- `put_raw_value(v)` (40 R122). -/
def putRawValue (v : Value) (s : State) : State := putBits v 64 s

/-- `finish()` (40 R123): flush the partial byte, whose unfilled low bits are 0 already. -/
def finish (s : State) : State :=
  if s.wfill = 0 then s else { appendByte s.wpart s with wpart := 0, wfill := 0 }

/-! ## The bitstream reader -/

/-- `read_bit()` at position `p` (40 R124): the bound is checked first, then bit `7 - (p mod 8)` of byte `p div 8` is
read; a byte that was never fed is stuck (93 I8). -/
def inputBit (s : State) : BitSource := fun p =>
  if 8 * s.inLen ≤ p then .error (.violation .readOob)
  else
    match Table.read s.inMem (p / 8) with
    | none => .error (.absentByte (p / 8))
    | some b => .ok (b.getLsbD (7 - p % 8))

/-- How the stop of a record's reading ends the command: a violation enters `FAULT` (60 R262), an absent cell is a
stuck state. -/
def stopAt (stop : ReadStop) (s : State) : Result :=
  match stop with
  | .violation c => .next (enterFault c s)
  | .absentByte _ => .fault .unwrittenInput
  | .absentSlot _ => .fault .unpopulatedSlot

end Sys2Proof.Machine
end

