-- ==== Sys2Proof/Machine/Control.lean ====
section
/-!
DEFINITION. The control commands (45_control.md): NOP, READ_CSR, SOFT_RESET and the reserved opcodes.
-/

namespace Sys2Proof.Machine

/-- NOP (45 R240). -/
def execNop (s : State) : Result := .next (respondOk 0 s)

/-- READ_CSR (45 R241). -/
def execReadCsr (n : BitVec 64) (s : State) : Result :=
  match csr n s with
  | some d => .next (respondOk d s)
  | none => .next (reject .badCsr s)

/-- SOFT_RESET (45 R242): every state element takes its reset value, then `OK 0`. -/
def execSoftReset (s : State) : Result := .next (respondOk 0 (resetCore s))

/-- The reserved opcodes (45 R243): rejected in every mode. -/
def execReserved (_op : BitVec 4) (s : State) : Result := .next (reject .illegalOp s)

end Sys2Proof.Machine
end

