-- ==== Sys2Proof/Machine/Decoder.lean ====
section
/-!
DEFINITION. The decoder (44_decoder.md): DEC_START, DEC_FEED, DEC_PULL, DEC_END, and the meanings of the five
wire-format records it executes.
-/

namespace Sys2Proof.Machine

/-! ## The values of the records -/

/-- The value at distance `d` (44 R215): a distance past index 0 is a violation, an unpopulated slot is stuck. -/
def referenced (dist : BitVec 7) (s : State) : Except ReadStop Value :=
  let d := distanceOf dist
  if d > s.index then .error (.violation .badDistance)
  else
    match Table.read s.ring (slotOf (s.index - d)) with
    | some r => .ok r
    | none => .error (.absentSlot (slotOf (s.index - d)))

/-- The predecessor (44 R218). -/
def predecessor (s : State) : Except ReadStop Value :=
  match Table.read s.ring (slotOf (s.index - 1)) with
  | some p => .ok p
  | none => .error (.absentSlot (slotOf (s.index - 1)))

/-- The xor of a BackRefPayload (30 R91, 44 R217): its low `L` payload bits, shifted up by `64 - b - L`. -/
def payloadXor (b : Bin) (len : BitVec 6) (p : Value) : Value :=
  lowBits len.toNat p <<< (64 - binValue b - len.toNat)

/-- The value of a BackRefPayload (44 R215, R217). -/
def backRefValue (dist : BitVec 7) (b : Bin) (len : BitVec 6) (p : Value) (s : State) :
    Except ReadStop Value :=
  match referenced dist s with
  | .error e => .error e
  | .ok r =>
      if binValue b + len.toNat > 64 then .error (.violation .badLength)
      else .ok (r ^^^ payloadXor b len p)

/-- The value of a PrevSameBin (44 R218, R219). -/
def prevSameValue (x : Value) (s : State) : Except ReadStop Value :=
  match predecessor s with
  | .error e => .error e
  | .ok p =>
      match s.pb with
      | none => .error (.violation .noPrevBin)
      | some b => .ok (p ^^^ lowBits (64 - binValue b) x)

/-- The value of a PrevNewBin (44 R218, R220). -/
def prevNewValue (b : Bin) (x : Value) (s : State) : Except ReadStop Value :=
  match predecessor s with
  | .error e => .error e
  | .ok p => .ok (p ^^^ lowBits (64 - binValue b) x)

/-- The value a record stands for (44 R213, R216, R217, R219, R220), or why it has none. -/
def recordValue (r : Record) (s : State) : Except ReadStop Value :=
  match r with
  | .verbatim v => .ok v
  | .exactMatch dist => referenced dist s
  | .backRefPayload dist b len p => backRefValue dist b len p s
  | .prevSameBin x => prevSameValue x s
  | .prevNewBin b x => prevNewValue b x s

/-! ## Executing a record -/

/-- The rejects of DEC_PULL in their order (44 R212, 60 R268). -/
def pullReject (s : State) : Option Status :=
  if s.mode ≠ .decLoad ∧ s.mode ≠ .decRun then some .wrongMode
  else if s.remaining = 0 then some .countExhausted
  else if indexFull s then some .indexFull
  else none

/-- The commit of a pulled value (44 R212, R221): `MODE <- DEC_RUN`, `PB` by the record, `RD_POS` after it, `update`,
`INDEX + 1`, `REMAINING - 1`. -/
def commitPull (v : Value) (r : Record) (pos : Nat) (s : State) : State :=
  let s' := update v s.index { s with pb := pbAfter s.pb r }
  { s' with
    mode := .decRun, rdPos := BitVec.ofNat 64 pos, index := s.index + 1, remaining := s.remaining - 1 }

/-- Execute a fetched record that ends at position `pos`: commit its value and return it, or enter `FAULT` from the
state before the command (44 R221, R224). -/
def completeRecord (r : Record) (pos : Nat) (s : State) : Result :=
  match recordValue r s with
  | .error stop => stopAt stop s
  | .ok v => .next (respondOk v (commitPull v r pos s))

/-- The record at `RD_POS` (44 R213 to R220). -/
def fetchRecord (s : State) : Except ReadStop (Record × Nat) :=
  decodeRecord (inputBit s) s.index s.pb s.rdPos.toNat

/-- The decoder can fetch the record at this value index: Verbatim at 0 only, the others after it (30 R81, R82). -/
def inPlace (r : Record) (index : Nat) : Bool :=
  match r with
  | .verbatim _ => index == 0
  | .exactMatch _ | .backRefPayload _ _ _ _ | .prevSameBin _ | .prevNewBin _ _ => index != 0

/-- A record as an instruction (log 10): what DEC_PULL does when this record is the one at `RD_POS`, its rejects
included. -/
def execRecord (r : Record) (s : State) : Result :=
  match pullReject s with
  | some st => .next (reject st s)
  | none =>
      if inPlace r s.index then completeRecord r (s.rdPos.toNat + recordLength s.pb r) s
      else .refused .recordOutOfPlace

/-- Verbatim (30 R82, 44 R213). -/
def execVerbatim (v : Value) (s : State) : Result := execRecord (.verbatim v) s

/-- ExactMatch (30 R83, 44 R215, R216). -/
def execExactMatch (dist : BitVec 7) (s : State) : Result := execRecord (.exactMatch dist) s

/-- BackRefPayload (30 R84, 44 R215, R217). -/
def execBackRefPayload (dist : BitVec 7) (b : Bin) (len : BitVec 6) (p : Value) (s : State) : Result :=
  execRecord (.backRefPayload dist b len p) s

/-- PrevSameBin (30 R85, 44 R218, R219). -/
def execPrevSameBin (x : Value) (s : State) : Result := execRecord (.prevSameBin x) s

/-- PrevNewBin (30 R86, 44 R218, R220). -/
def execPrevNewBin (b : Bin) (x : Value) (s : State) : Result := execRecord (.prevNewBin b x) s

/-! ## The commands -/

/-- DEC_START (44 R210): accepted in every mode. -/
def execDecStart (count : BitVec 64) (s : State) : Result :=
  .next (respondOk 0 { clearJob s with mode := .decLoad, remaining := count })

/-- `IN[IN_LEN] <- byte`, `IN_LEN <- IN_LEN + 1` (20 R52, 44 R211). -/
def feedByte (b : Byte) (s : State) : State :=
  { s with inMem := Table.write s.inMem s.inLen b, inLen := s.inLen + 1 }

/-- DEC_FEED (44 R211). -/
def execDecFeed (b : Byte) (s : State) : Result :=
  if s.mode ≠ .decLoad then .next (reject .wrongMode s)
  else if s.inLen = s.config.inCap then .next (reject .ibufFull s)
  else
    let t := feedByte b s
    .next (respondOk (BitVec.ofNat 64 t.inLen) t)

/-- DEC_PULL (44 R212): the rejects, then the record at `RD_POS` is read and executed. -/
def execDecPull (s : State) : Result :=
  match pullReject s with
  | some st => .next (reject st s)
  | none =>
      match fetchRecord s with
      | .error stop => stopAt stop s
      | .ok (r, pos) => completeRecord r pos s

/-- DEC_END (44 R222). -/
def execDecEnd (s : State) : Result :=
  if s.mode ≠ .decLoad ∧ s.mode ≠ .decRun then .next (reject .wrongMode s)
  else .next (respondOk s.rdPos { s with mode := .idle })

end Sys2Proof.Machine
end

