-- ==== Sys2Proof/Machine/Encoder.lean ====
section
/-!
DEFINITION. The back-reference selector (42_selector.md) and the encoder (43_encoder.md): ENC_START, ENC_PUSH,
ENC_FINISH.
-/

namespace Sys2Proof.Machine

/-! ## The selector -/

/-- The candidates at distances `d`, `d + 1`, …, `d + n - 1` of index `i`, nearest first, each with its index
(42 R162). -/
def candidates (ring : Table Value) (i : Nat) : (d n : Nat) → Except Fault (List (Nat × Value))
  | _, 0 => .ok []
  | d, n + 1 => do
      let c ← ringAt ring (slotOf (i - d))
      let rest ← candidates ring i (d + 1) n
      return (i - d, c) :: rest

/-- The quality of a candidate for `v` (42 R162): `count_trailing(v ^ c)`. -/
def quality (v : Value) (c : Nat × Value) : Nat := countTrailing (v ^^^ c.2)

/-- The nearest maximiser (42 R162, `SCAN_TIE = NEAREST`): nearest first, a later candidate replaces the best only if
it is strictly better. -/
def nearestBest (v : Value) (first : Nat × Value) (rest : List (Nat × Value)) : Nat × Value :=
  rest.foldl (fun best c => if quality v c > quality v best then c else best) first

/-- Any maximiser (42 R163, `SCAN_TIE = ANY`): the free choice `pick` among all candidates of the greatest quality. -/
def anyBest (v : Value) (pick : Nat) (first : Nat × Value) (rest : List (Nat × Value)) : Nat × Value :=
  let best := quality v (nearestBest v first rest)
  let maximisers := (first :: rest).filter fun c => quality v c == best
  maximisers.getD (pick % maximisers.length) first

/-- `scan(v, i)` (42 R162, R163), for `i >= 1`: over the distances 1 to `min(i, 128)`. -/
def scan (s : State) (v : Value) (i : Nat) : Except Fault (Nat × Value) := do
  let c ← ringAt s.ring (slotOf (i - 1))
  let rest ← candidates s.ring i 2 (min i 128 - 1)
  match s.config.scanTie with
  | .nearest => return nearestBest v (i - 1, c) rest
  | .any => return anyBest v (Config.anyPick s.pick) (i - 1, c) rest

/-- `select(v, i)` (42 R161), for `i >= 1`: the lookup's index when it is at most 128 back, whatever its quality, and
the scan otherwise. An entry not below `i` is stuck (42 R161: it never occurs). -/
def select (s : State) (v : Value) (i : Nat) : Except Fault (Nat × Value) :=
  match Table.read s.lut (hashOf v) with
  | none => scan s v i
  | some j =>
      if i ≤ j then .error .lookupAhead
      else if i - j ≤ 128 then do
        let c ← ringAt s.ring (slotOf j)
        return (j, c)
      else scan s v i

/-! ## The record of a value -/

/-- The record of the back-reference branch (43 R184, R185), for the xor `x` with the value at distance `d`. -/
def backRefRecord (d : Nat) (x : Value) : Record :=
  if x = 0 then .exactMatch (distanceField d)
  else
    let b := binOf (countLeading x)
    let t := countTrailing x
    .backRefPayload (distanceField d) b (BitVec.ofNat 6 (64 - binValue b - t)) (x >>> t)

/-- The record of the previous-value branch (43 R186 to R188), for the xor `x` with the predecessor. -/
def prevRecord (pb : Option Bin) (x : Value) : Record :=
  let b := binOf (countLeading x)
  if pb = some b then .prevSameBin x else .prevNewBin b x

/-- The record the encoder emits for `v` at `INDEX` (43 R182, R183): Verbatim at 0; the back-reference branch when the
selected candidate leaves more than `BR_THRESHOLD` trailing zeros; else the xor is taken with the predecessor. -/
def chooseRecord (s : State) (v : Value) : Except Fault Record :=
  if s.index = 0 then .ok (.verbatim v)
  else do
    let (j, c) ← select s v s.index
    if countTrailing (v ^^^ c) > s.config.brThreshold.toNat then
      return backRefRecord (s.index - j) (v ^^^ c)
    else do
      let p ← ringAt s.ring (slotOf (s.index - 1))
      return prevRecord s.pb (v ^^^ p)

/-- The emission of a record: the writes of 43 R182, R184, R185, R187 and R188, in their order. `PB` is not yet
updated. -/
def emit (r : Record) (s : State) : State :=
  match r with
  | .verbatim v => putRawValue v s
  | .exactMatch dist =>
      putBit false (putBits (dist.zeroExtend 64) 7 (putBit false s))
  | .backRefPayload dist b len p =>
      putBits p len.toNat
        (putBits (len.zeroExtend 64) 6
          (putBits ((encodeBin b).zeroExtend 64) 3
            (putBit true (putBits (dist.zeroExtend 64) 7 (putBit false s)))))
  | .prevSameBin x =>
      putBits x (sameBinWidth s.pb) (putBit false (putBit true s))
  | .prevNewBin b x =>
      putBits x (64 - binValue b)
        (putBits ((encodeBin b).zeroExtend 64) 3 (putBit true (putBit true s)))

/-- The commit of a pushed value (43 R189, R190): `PB`, `update`, `INDEX + 1`; and the free-choice counter moves on
(log 11). -/
def commitPush (v : Value) (r : Record) (s : State) : State :=
  let s' := update v s.index { s with pb := pbAfter s.pb r }
  { s' with index := s.index + 1, pick := s.pick + 1 }

/-! ## The commands -/

/-- ENC_START (43 R180): accepted in every mode. `REMAINING` is cleared, so that it holds 0 in an encode job (10 R24,
log 1). -/
def execEncStart (s : State) : Result :=
  .next (respondOk 0 { clearJob s with mode := .enc, remaining := 0 })

/-- ENC_PUSH (43 R181). -/
def execEncPush (v : Value) (s : State) : Result :=
  if s.mode ≠ .enc then .next (reject .wrongMode s)
  else if indexFull s then .next (reject .indexFull s)
  else
    match chooseRecord s v with
    | .error f => .fault f
    | .ok r =>
        let t := commitPush v r (emit r s)
        .next (respondOk t.outLen t)

/-- ENC_FINISH (43 R191). -/
def execEncFinish (s : State) : Result :=
  if s.mode ≠ .enc then .next (reject .wrongMode s)
  else
    let t := { finish s with mode := .idle }
    .next (respondOk t.outLen t)

end Sys2Proof.Machine
end

