-- ==== Sys2Proof/Machine/Dispatch.lean ====
section
/-!
DEFINITION. The dispatch: one arm per constructor of `Instr`.
-/

namespace Sys2Proof.Machine

/-- The meaning of an instruction in a state. -/
def exec (i : Instr) (s : State) : Host.Outcome State Fault Refusal :=
  match i with
  | .nop => Sys2Proof.Machine.execNop s
  | .encStart => Sys2Proof.Machine.execEncStart s
  | .encPush v => Sys2Proof.Machine.execEncPush v s
  | .encFinish => Sys2Proof.Machine.execEncFinish s
  | .decStart count => Sys2Proof.Machine.execDecStart count s
  | .decFeed b => Sys2Proof.Machine.execDecFeed b s
  | .decPull => Sys2Proof.Machine.execDecPull s
  | .decEnd => Sys2Proof.Machine.execDecEnd s
  | .readCsr n => Sys2Proof.Machine.execReadCsr n s
  | .softReset => Sys2Proof.Machine.execSoftReset s
  | .reserved op => Sys2Proof.Machine.execReserved op s
  | .verbatim v => Sys2Proof.Machine.execVerbatim v s
  | .exactMatch dist => Sys2Proof.Machine.execExactMatch dist s
  | .backRefPayload dist b len p => Sys2Proof.Machine.execBackRefPayload dist b len p s
  | .prevSameBin x => Sys2Proof.Machine.execPrevSameBin x s
  | .prevNewBin b x => Sys2Proof.Machine.execPrevNewBin b x s

end Sys2Proof.Machine
end

