-- ==== Sys2Proof/Machine/Fetch.lean ====
section
/-!
DEFINITION. Where the core's next instruction comes from: the host's next event, and for a record the bytes it fed; and
how one given instruction is placed there (log 3).
-/

namespace Sys2Proof.Machine

/-- The host's next event, taken from the port. -/
def takeEvent (s : State) : Option (HostEvent × State) :=
  match s.port with
  | [] => none
  | e :: rest => some (e, { s with port := rest })

/-- The host issues this word next. -/
def issue (w : CommandWord) (s : State) : State := { s with port := .command w :: s.port }

/-- The word of DEC_PULL, its ignored bits 0 (44 R212). -/
def pullWord : CommandWord := 0x6#4 ++ 0#64

/-- Bytes as `IN` from address `a` on. -/
def loadBytes : (a : Nat) → List Byte → Memory
  | _, [] => []
  | a, b :: rest => (a, b) :: loadBytes (a + 1) rest

/-- A decode job whose input is these bytes, at value index `index`, about to be pulled. -/
def stageInput (bytes : List Byte) (index : Nat) (s : State) : State :=
  issue pullWord
    { s with
      mode := if index = 0 then .decLoad else .decRun, cause := none, index := index, remaining := if s.remaining = 0 then 1 else s.remaining,
      inMem := loadBytes 0 bytes, inLen := bytes.length, rdPos := 0 }

/-- The eight bytes of a Verbatim value (20 R56). -/
def verbatimBytes (w : Nat) : List Byte :=
  (List.range 8).map fun k => BitVec.ofNat 8 (w >>> (56 - 8 * k))

/-- The bytes that begin with a record's first nine stream bits, as the opcode table numbers them; nine bytes hold the
longest record those bits can begin with zeros after them. -/
def recordBytes (w : Nat) : List Byte :=
  [BitVec.ofNat 8 (w >>> 1), BitVec.ofNat 8 (w <<< 7)] ++ List.replicate 7 0

/-- A ring that holds a value in every slot, for a record that refers back. -/
def fullRing : Table Value := (List.range 128).map fun k => (k, 0)

/-- Place one instruction, its bits numbered as the opcode table numbers them, where the next step fetches (log 3): a
command on the port; a Verbatim value at the start of a decode job; another record in a decode job with every distance
populated and the running bin of `tableBin`. -/
def placeWord (s : State) (nbits w : Nat) : State :=
  if nbits > 64 then issue (BitVec.ofNat 68 w) s
  else if nbits = 64 then stageInput (verbatimBytes w) 0 s
  else stageInput (recordBytes w) tableIndex { s with ring := fullRing, pb := some tableBin }

end Sys2Proof.Machine
end

