-- ==== Sys2Proof/Machine/Step.lean ====
section
/-!
DEFINITION. One step of the core: the host's next event.
-/

namespace Sys2Proof.Machine

/-- One step (70 R300): with no event pending the core holds its state (60 R278); a reset puts every element to its
reset value and answers nothing (70 R290); a command is executed to completion. -/
def step (s : State) : Host.Outcome State Fault Refusal :=
  match takeEvent s with
  | none => .next s
  | some (.externalReset, s') => .next (resetCore s')
  | some (.command w, s') => exec (decodeCommand w) s'

/-- The state with the instruction of these bits placed where `step` fetches next (log 3). -/
def State.withFetchWord (s : State) (nbits w : Nat) : State := placeWord s nbits w

end Sys2Proof.Machine
end

