-- ==== Sys2Proof/Machine/Jobs.lean ====
section
/-!
DEFINITION. The pseudo-commands (45 R246, R247): whole encode and decode jobs as the command sequences the host issues.
-/

namespace Sys2Proof.Machine

/-- Go on from the next state of an outcome; a stop of the model ends the sequence. -/
def andThen (r : Result) (go : State → Result) : Result :=
  match r with
  | .next t => go t
  | .fault f => .fault f
  | .refused e => .refused e

/-- The commands of a list, one after another. -/
def runCommands : List Instr → State → Result
  | [], s => .next s
  | i :: rest, s => andThen (exec i s) (runCommands rest)

/-- The pseudo-command ENCODE (45 R246); its result is `OUT`. -/
def encodeJob (values : List Value) : List Instr :=
  [.encStart] ++ values.map .encPush ++ [.encFinish]

/-- How DECODE begins (45 R247): the job is opened and its bytes are fed. -/
def loadJob (bytes : List Byte) (count : BitVec 64) : List Instr :=
  [.decStart count] ++ bytes.map .decFeed

/-- How DECODE goes on (45 R247): `n` pulls and DEC_END; a pull that faults ends it, and no command follows. -/
def runPulls : (n : Nat) → State → Result
  | 0, s => exec .decEnd s
  | n + 1, s =>
      andThen (exec .decPull s) fun t => if t.mode = .fault then .next t else runPulls n t

/-- The pseudo-command DECODE (45 R247): it completes the full count, or ends with the first fault. -/
def runDecode (bytes : List Byte) (count : BitVec 64) (s : State) : Result :=
  andThen (runCommands (loadJob bytes count) s) (runPulls count.toNat)

end Sys2Proof.Machine
end

