-- ==== Sys2Proof/Safety.lean ====
section
/-!
DEFINITION. The terms claims are made in: the bits a job has written, the values it has seen, the invariant of every
reachable state (10 R38), and the classes of commands.
-/

namespace Sys2Proof.Machine

/-- The bits written in this job, in stream order: those of `OUT`, then the filled ones of `WPART` (40 R128). -/
def bitsWritten (s : State) : List Bool :=
  s.out.flatMap byteBits ++ (byteBits s.wpart).take s.wfill.toNat

/-- A bit source reads as these bits from position `pos` on (40 R129). -/
def Spells (src : BitSource) (pos : Nat) (bits : List Bool) : Prop :=
  ∀ k b, bits[k]? = some b → src (pos + k) = .ok b

/-- The selector holds exactly what the values `hist` of this job leave in it (10 R38 (a) to (c)): a slot holds the value
of the one index within 128 of `INDEX` that falls on it, an entry the last index of its hash. -/
structure Remembers (hist : List Value) (s : State) : Prop where
  counted : s.index = hist.length
  slot : ∀ k v, Table.read s.ring k = some v ↔
    ∃ j, hist[j]? = some v ∧ slotOf j = k ∧ hist.length ≤ j + 128
  entry : ∀ h j, Table.read s.lut h = some j ↔
    (∃ v, hist[j]? = some v ∧ hashOf v = h) ∧
      ∀ j' v', hist[j']? = some v' → hashOf v' = h → j' ≤ j

/-- The invariant of every reachable state: the build is legal, the storage is in canonical form, the registers keep
their ranges, and the selector remembers the job's values. -/
structure State.Inv (s : State) : Prop where
  config_wf : s.config.wf
  ring_wf : Table.wf s.ring
  lut_wf : Table.wf s.lut
  in_wf : Memory.wf s.inMem
  index_bound : s.index < 2 ^ s.config.idxW
  remembers : ∃ hist, Remembers hist s
  in_loaded : ∀ a, (Table.read s.inMem a).isSome ↔ a < s.inLen
  in_cap : s.inLen ≤ s.config.inCap
  rd_bound : s.rdPos.toNat ≤ 8 * s.inLen
  part_clear : ∀ k, k < 8 - s.wfill.toNat → s.wpart.getLsbD k = false
  out_counted : s.outLen = BitVec.ofNat 64 s.out.length
  cause_mode : s.cause = none ↔ s.mode ≠ .fault
  enc_remaining : s.mode = .enc → s.remaining = 0
  load_index : s.mode = .decLoad → s.index = 0
  run_index : s.mode = .decRun → s.index ≠ 0

/-- The state but for the writer: only `put_bit` and `finish` write it, and they write nothing else (10 R26, R27). -/
structure SameButWriter (s t : State) : Prop where
  mode : t.mode = s.mode
  index : t.index = s.index
  remaining : t.remaining = s.remaining
  pb : t.pb = s.pb
  inMem : t.inMem = s.inMem
  inLen : t.inLen = s.inLen
  rdPos : t.rdPos = s.rdPos
  cause : t.cause = s.cause
  ring : t.ring = s.ring
  lut : t.lut = s.lut
  config : t.config = s.config
  port : t.port = s.port
  rsps : t.rsps = s.rsps
  pick : t.pick = s.pick

/-- What the writer keeps of itself: the unfilled bits of `WPART` are 0 and `OUT_LEN` counts `OUT` (10 R26, R27). -/
structure WriterOk (s : State) : Prop where
  part_clear : ∀ k, k < 8 - s.wfill.toNat → s.wpart.getLsbD k = false
  out_counted : s.outLen = BitVec.ofNat 64 s.out.length

/-- What a pushed value does to everything but the bits written and `PB` (43 R181, R190): `INDEX`, one slot, one entry
and the response change, `OUT` may grow, `OUT_LEN` with it, and the rest stays. -/
structure Pushed (v : Value) (s t : State) : Prop where
  index : t.index = s.index + 1
  slot : ∀ k, Table.read t.ring k = if k = slotOf s.index then some v else Table.read s.ring k
  entry : ∀ h, Table.read t.lut h = if h = hashOf v then some s.index else Table.read s.lut h
  answer : t.rsps = s.rsps ++ [responseWord .ok t.outLen]
  out : s.out <+: t.out
  writer : WriterOk s → WriterOk t
  mode : t.mode = s.mode
  remaining : t.remaining = s.remaining
  inMem : t.inMem = s.inMem
  inLen : t.inLen = s.inLen
  rdPos : t.rdPos = s.rdPos
  cause : t.cause = s.cause
  config : t.config = s.config
  port : t.port = s.port

/-- What a pulled value does to everything but `PB` (44 R212, R221), its record being `len` bits long: `MODE`, `INDEX`,
`REMAINING`, `RD_POS`, one slot, one entry and the response change, and the rest stays. -/
structure Pulled (v : Value) (len : Nat) (s t : State) : Prop where
  mode : t.mode = .decRun
  index : t.index = s.index + 1
  remaining : t.remaining = s.remaining - 1
  rdPos : t.rdPos = BitVec.ofNat 64 (s.rdPos.toNat + len)
  slot : ∀ k, Table.read t.ring k = if k = slotOf s.index then some v else Table.read s.ring k
  entry : ∀ h, Table.read t.lut h = if h = hashOf v then some s.index else Table.read s.lut h
  answer : t.rsps = s.rsps ++ [responseWord .ok v]
  wpart : t.wpart = s.wpart
  wfill : t.wfill = s.wfill
  out : t.out = s.out
  outLen : t.outLen = s.outLen
  inMem : t.inMem = s.inMem
  inLen : t.inLen = s.inLen
  cause : t.cause = s.cause
  config : t.config = s.config
  port : t.port = s.port
  pick : t.pick = s.pick

/-- A pull is accepted (44 R212): a decode job, values left, and room for one more index. -/
def CanPull (s : State) : Prop :=
  (s.mode = .decLoad ∨ s.mode = .decRun) ∧ s.remaining ≠ 0 ∧ s.index ≠ 2 ^ s.config.idxW - 1

/-- The statuses of the rejects (30 R102). -/
def Status.isReject : Status → Bool
  | .ok | .fault _ => false
  | .illegalOp | .wrongMode | .countExhausted | .ibufFull | .indexFull | .badCsr => true

/-- The mode legality table (45 R244) for the commands. A record, which no host issues, has no row in it
and takes that of DEC_PULL (DESIGN CHOICE, log 10). -/
def legalIn (m : Mode) (i : Instr) : Bool :=
  match i with
  | .nop | .readCsr _ | .softReset | .encStart | .decStart _ | .reserved _ => true
  | .encPush _ | .encFinish => m == .enc
  | .decFeed _ => m == .decLoad
  | .decPull | .decEnd | .verbatim _ | .exactMatch _ | .backRefPayload _ _ _ _ | .prevSameBin _
  | .prevNewBin _ _ => m == .decLoad || m == .decRun

/-- The commands that abandon a job and clear its state (10 R40, 45 R242). -/
def startsOver : Instr → Bool
  | .encStart | .decStart _ | .softReset => true
  | .nop | .encPush _ | .encFinish | .decFeed _ | .decPull | .decEnd | .readCsr _ | .reserved _
  | .verbatim _ | .exactMatch _ | .backRefPayload _ _ _ _ | .prevSameBin _ | .prevNewBin _ _ => false

end Sys2Proof.Machine
end

