-- ==== Sys2Proof/Certificates/Slice0/Obligations.lean ====
section
/-!
DEFINITION. The statements about the XDC core, from the spec's numbered rules.
-/

open Sys2Proof Sys2Proof.Machine

/-! ## Encodings (30_encoding.md) -/

/-- The opcode map (30 R99, its OP and ARG columns; R97, R100, R101): `OP` alone selects the command, ignored `ARG` bits
have no effect, opcodes 0xA to 0xF are reserved; and the word of a well-formed command decodes back to it. -/
def Obligations.CommandWordsDecode : Prop :=
  (∀ arg : BitVec 64,
    decodeCommand (0x0#4 ++ arg) = .nop ∧ decodeCommand (0x1#4 ++ arg) = .encStart ∧
    decodeCommand (0x2#4 ++ arg) = .encPush arg ∧ decodeCommand (0x3#4 ++ arg) = .encFinish ∧
    decodeCommand (0x4#4 ++ arg) = .decStart arg ∧
    decodeCommand (0x5#4 ++ arg) = .decFeed (arg.extractLsb' 0 8) ∧
    decodeCommand (0x6#4 ++ arg) = .decPull ∧ decodeCommand (0x7#4 ++ arg) = .decEnd ∧
    decodeCommand (0x8#4 ++ arg) = .readCsr arg ∧ decodeCommand (0x9#4 ++ arg) = .softReset ∧
    ∀ op : BitVec 4, 10 ≤ op.toNat → decodeCommand (op ++ arg) = .reserved op) ∧
  ∀ i w, i.wf = true → encodeCommand i = some w → decodeCommand w = i

/-- Decoding the bits of a record that fits its context gives the record back, with every field at every value, and ends
after its last bit (30 R82 to R92; 44 R213 to R220). -/
def Obligations.RecordRoundTrip : Prop :=
  ∀ src index pb pos r, r.wf = true → r.fitsContext index pb = true →
    Spells src pos (encodeRecord pb r) →
    decodeRecord src index pb pos = .ok (r, pos + (encodeRecord pb r).length)

/-- What the decoder reads is spelled by the bits it read: a decoded record is well formed, fits its context, the bits at
its place are its encoding, and it is as long as the decode tree says (30 R87, R96). -/
def Obligations.DecodedRecordIsSpelled : Prop :=
  ∀ src index pb pos r pos', decodeRecord src index pb pos = .ok (r, pos') →
    r.wf = true ∧ r.fitsContext index pb = true ∧ Spells src pos (encodeRecord pb r) ∧
      pos' = pos + recordLength pb r

/-- A few bit strings of the spec's vectors decode to the records they stand for (95 L2.3 S4, L1.2 index 2, L2.4 E5;
30 R83 to R86). -/
def Obligations.WrittenRecordsDecode : Prop :=
  let at0 (bits : List Bool) : BitSource := fun p => .ok (bits.getD p false)
  decodeRecord (at0 [false, false, false, false, false, false, false, false, false]) 128 none 0 =
    .ok (.exactMatch 0, 9) ∧
  decodeRecord (at0 [false, false, false, false, false, false, false, true, true, false, false, false,
    false, false, true, true, false, false, false, true, true, true, true, true, true, true, true, true,
    true, true]) 2 none 0 = .ok (.backRefPayload 1 .b0 12 0x7FF, 30) ∧
  decodeRecord (at0 ([true, true, true, true, true] ++ List.replicate 39 false ++ [true])) 1 none 0 =
    .ok (.prevNewBin .b24 1, 45) ∧
  decodeRecord (at0 ([true, false] ++ List.replicate 38 false ++ [true, false])) 2 (some .b24) 0 =
    .ok (.prevSameBin 2, 42)

/-! ## The zero-run binning classifier (41_binning.md) -/

/-- The two counts are the lengths of the zero runs, 64 for 0 (41 R140, R141). -/
def Obligations.CountsAreZeroRuns : Prop :=
  (countLeading 0 = 64 ∧ countTrailing 0 = 64) ∧
  ∀ x : Value, x ≠ 0 →
    countLeading x ≤ 63 ∧ x.getLsbD (63 - countLeading x) = true ∧
    (∀ k, 63 - countLeading x < k → x.getLsbD k = false) ∧
    x.getLsbD (countTrailing x) = true ∧ (∀ k, k < countTrailing x → x.getLsbD k = false) ∧
    countLeading x + countTrailing x ≤ 63

/-- `bin_of(c)` is the greatest member of `BIN_SET` that is at most `c` (41 R142). -/
def Obligations.BinOfIsTheGreatestBinBelow : Prop :=
  ∀ c, c ≤ 64 →
    binValue (binOf c) ∈ [0, 8, 12, 16, 18, 20, 22, 24] ∧ binValue (binOf c) ≤ c ∧
      ∀ t ∈ [0, 8, 12, 16, 18, 20, 22, 24], t ≤ c → t ≤ binValue (binOf c)

/-- The binning laws (41 R147), the ascending table of the codes (41 R143, R144), and the distance field (30 R88): the decoder
recovers every distance of the window, and the code 0 stands for 128. -/
def Obligations.FieldCodesAreInverse : Prop :=
  (∀ b, decodeBin (encodeBin b) = b) ∧ (∀ k, encodeBin (decodeBin k) = k) ∧
  (∀ b, binOf (binValue b) = b) ∧
  (List.range 8).map (fun k => binValue (decodeBin (BitVec.ofNat 3 k))) = [0, 8, 12, 16, 18, 20, 22, 24] ∧
  (∀ d, 1 ≤ d → d ≤ 128 → (distanceField d).toNat = d % 128 ∧ distanceOf (distanceField d) = d) ∧
  ∀ D : BitVec 7, distanceOf D = if D.toNat = 0 then 128 else D.toNat

/-- The rounding-down law (41 R145): a word fits the bits its bin leaves, exactly, and the bits wasted are bounded. -/
def Obligations.BinLeavesRoom : Prop :=
  ∀ x : Value,
    let c := countLeading x
    let b := binValue (binOf c)
    b ≤ c ∧ (∀ k, 64 - b ≤ k → x.getLsbD k = false) ∧ x.toNat < 2 ^ (64 - b) ∧
      lowBits (64 - b) x = x ∧ wastedBits x = c - b ∧
      (c < 24 → wastedBits x ≤ 7) ∧ (c = 7 → wastedBits x = 7) ∧ (24 ≤ c → wastedBits x = c - 24) ∧
      (x ≠ 0 → wastedBits x ≤ 39) ∧ (x = 0 → wastedBits x = 40)

/-! ## The bitstream cursor (40_bitcursor.md) -/

/-- `put_bit` (40 R120): the bit goes to position `7 - WFILL`; the eighth bit of a byte flushes it in the same call; nothing
else changes. -/
def Obligations.PutBitFillsTheNextBit : Prop :=
  ∀ (b : Bool) (s : State), SameButWriter s (putBit b s) ∧
    (s.wfill.toNat < 7 →
      (putBit b s).wfill.toNat = s.wfill.toNat + 1 ∧ (putBit b s).out = s.out ∧
      (putBit b s).outLen = s.outLen ∧
      ∀ k, k < 8 → (putBit b s).wpart.getLsbD k = if k = 7 - s.wfill.toNat then b else s.wpart.getLsbD k) ∧
    (s.wfill.toNat = 7 →
      (putBit b s).wfill = 0 ∧ (putBit b s).wpart = 0 ∧ (putBit b s).outLen = s.outLen + 1 ∧
      ∃ byte, (putBit b s).out = s.out ++ [byte] ∧
        ∀ k, k < 8 → byte.getLsbD k = if k = 0 then b else s.wpart.getLsbD k)

/-- `put_bits` (40 R121): bits `width-1` down to 0, one after another; nothing for width 0; nothing else changes. -/
def Obligations.PutBitsWritesTheField : Prop :=
  ∀ (x : Value) (width : Nat) (s : State), width ≤ 64 →
    SameButWriter s (putBits x width s) ∧
    bitsWritten (putBits x width s) =
      bitsWritten s ++ (List.range width).map (fun k => x.getLsbD (width - 1 - k)) ∧
    putBits x 0 s = s

/-- `finish` (40 R123, 20 R59): a partial byte is flushed padded with zero bits, a full one leaves nothing to do; nothing
else changes. -/
def Obligations.FinishPadsToAByte : Prop :=
  ∀ s : State, WriterOk s →
    SameButWriter s (finish s) ∧ (finish s).wfill = 0 ∧ (finish s).wpart = 0 ∧
    bitsWritten (finish s) = bitsWritten s ++ List.replicate ((8 - s.wfill.toNat) % 8) false ∧
    (s.wfill = 0 → finish s = s) ∧
    (s.wfill ≠ 0 → (finish s).out = s.out ++ [s.wpart] ∧ (finish s).outLen = s.outLen + 1)

/-- Writer accounting (40 R128): `N` bits from an empty writer give `N div 8` bytes and `N mod 8` bits held; `finish` makes
`ceil(N / 8)` bytes, whose bits are the `N` bits in order and then zeros. -/
def Obligations.WriterAccounting : Prop :=
  ∀ (bits : List Bool) (s : State),
    s.out = [] → s.outLen = 0 → s.wpart = 0 → s.wfill = 0 →
    let t := bits.foldl (fun u b => putBit b u) s
    t.out.length = bits.length / 8 ∧ t.outLen = BitVec.ofNat 64 (bits.length / 8) ∧
      t.wfill.toNat = bits.length % 8 ∧
      (finish t).out.length = (bits.length + 7) / 8 ∧
      (finish t).outLen = BitVec.ofNat 64 ((bits.length + 7) / 8) ∧
      (finish t).out.flatMap byteBits =
        bits ++ List.replicate ((8 - bits.length % 8) % 8) false

/-- `read_bit` and `read_bits` (40 R124, R125; 20 R52): past the loaded input a bit raises `READ_OOB`, and before that it is
bit `7 - (p mod 8)` of byte `p div 8`; a field is `width` bits shifted in most significant first, it stops at the first bit
that cannot be read, and width 0 reads nothing. -/
def Obligations.ReadBitsShiftsIn : Prop :=
  (∀ (s : State) (p : Nat),
    (8 * s.inLen ≤ p → inputBit s p = .error (.violation .readOob)) ∧
    ∀ byte, p < 8 * s.inLen → Table.read s.inMem (p / 8) = some byte →
      inputBit s p = .ok (byte.getLsbD (7 - p % 8))) ∧
  ∀ (src : BitSource) (width pos : Nat), width ≤ 64 →
    (∀ x : Value, (∀ k, k < width → src (pos + k) = .ok (x.getLsbD (width - 1 - k))) →
      readBits src width pos 0 = .ok (lowBits width x, pos + width)) ∧
    (∀ k e, k < width → (∀ j, j < k → ∃ b, src (pos + j) = .ok b) → src (pos + k) = .error e →
      readBits src width pos 0 = .error e) ∧
    readBits src 0 pos 0 = .ok (0, pos)

/-- Reader and writer agree (40 R129): an input that holds what a writer wrote and finished reads back as the bits written,
then the padding zeros, then `READ_OOB`; and a field reads back as its low bits. -/
def Obligations.ReaderRecoversTheWriter : Prop :=
  ∀ (bits : List Bool) (s d : State),
    s.out = [] → s.outLen = 0 → s.wpart = 0 → s.wfill = 0 →
    let t := finish (bits.foldl (fun u b => putBit b u) s)
    d.inLen = t.out.length → (∀ a, Table.read d.inMem a = t.out[a]?) →
    (∀ k b, bits[k]? = some b → inputBit d k = .ok b) ∧
    (∀ k, bits.length ≤ k → k < 8 * d.inLen → inputBit d k = .ok false) ∧
    ∀ xs ys width (x : Value), width ≤ 64 →
      bits = xs ++ (List.range width).map (fun k => x.getLsbD (width - 1 - k)) ++ ys →
      readBits (inputBit d) width xs.length 0 = .ok (lowBits width x, xs.length + width)

/-- A 64-bit value at a byte boundary lands in eight bytes, big-endian (20 R56, 40 R122). -/
def Obligations.RawValueIsBigEndian : Prop :=
  ∀ (v : Value) (s : State), s.wfill = 0 →
    (putRawValue v s).out = s.out ++ (List.range 8).map (fun n => v.extractLsb' (56 - 8 * n) 8) ∧
      (putRawValue v s).wfill = 0 ∧ (putRawValue v s).outLen = s.outLen + 8

/-! ## The back-reference selector (42_selector.md) -/

/-- `update(v, i)` (42 R165): the slot `i mod 128` and the entry of the value's hash, overwriting any prior occupant, and
nothing else. -/
def Obligations.UpdateRecordsTheValue : Prop :=
  ∀ (v : Value) (i : Nat) (s : State),
    (∀ k, Table.read (update v i s).ring k = if k = i % 128 then some v else Table.read s.ring k) ∧
    (∀ h, Table.read (update v i s).lut h =
      if h = (v.extractLsb' 0 14).toNat then some i else Table.read s.lut h) ∧
    update v i s = { s with ring := (update v i s).ring, lut := (update v i s).lut }

/-- The lookup step of `select` (42 R161): an entry at most 128 back is taken whatever its quality; a missing or stale one
leads to the scan. -/
def Obligations.SelectTakesTheLookup : Prop :=
  ∀ (s : State) (v : Value) (i : Nat), 1 ≤ i →
    (∀ j c, Table.read s.lut (hashOf v) = some j → j < i → i - j ≤ 128 →
      Table.read s.ring (j % 128) = some c → select s v i = .ok (j, c)) ∧
    (∀ j, Table.read s.lut (hashOf v) = some j → j < i → 128 < i - j → select s v i = scan s v i) ∧
    (Table.read s.lut (hashOf v) = none → select s v i = scan s v i)

/-- `scan(v, i)` (42 R162, R163): over the distances 1 to `min(i, 128)` it returns a candidate with maximal
`count_trailing` of the xor, whatever the free choice of `SCAN_TIE = ANY`; with `NEAREST` it is the nearest of the best. That
the choice of `ANY` is a free value is the model's own form (log 11). -/
def Obligations.ScanTakesAMaximiser : Prop :=
  ∀ (s : State) (v : Value) (i : Nat), 1 ≤ i →
    (∀ e, 1 ≤ e → e ≤ min i 128 → (Table.read s.ring ((i - e) % 128)).isSome) →
    ∃ d c, 1 ≤ d ∧ d ≤ min i 128 ∧ scan s v i = .ok (i - d, c) ∧
      Table.read s.ring ((i - d) % 128) = some c ∧
      ∀ e c', 1 ≤ e → e ≤ min i 128 → Table.read s.ring ((i - e) % 128) = some c' →
        countTrailing (v ^^^ c') ≤ countTrailing (v ^^^ c) ∧
        (s.config.scanTie = .nearest → e < d → countTrailing (v ^^^ c') < countTrailing (v ^^^ c))

/-- The window bound (42 R166): every candidate `select` returns is 1 to 128 back. -/
def Obligations.SelectStaysInTheWindow : Prop :=
  ∀ (s : State) (v : Value) (i j : Nat) (c : Value), 1 ≤ i → select s v i = .ok (j, c) →
    1 ≤ i - j ∧ i - j ≤ 128

/-- Totality (42 R164; 20 R70, R71): once a value has been seen, `select` returns the value of the index it names. -/
def Obligations.SelectAlwaysFinds : Prop :=
  ∀ (hist : List Value) (s : State) (v : Value), Remembers hist s → 1 ≤ s.index →
    ∃ j c, select s v s.index = .ok (j, c) ∧ hist[j]? = some c

/-- A scan never yields more than 13 trailing zeros, and a hit never fewer than 14 (42 R167). -/
def Obligations.ScanYieldsAtMost13 : Prop :=
  ∀ (hist : List Value) (s : State) (v : Value) (j : Nat) (c : Value),
    Remembers hist s → 1 ≤ s.index → select s v s.index = .ok (j, c) →
    ((∀ k, Table.read s.lut (hashOf v) = some k → 128 < s.index - k) →
      (∀ j' c', hist[j']? = some c' → s.index ≤ j' + 128 →
        hashOf c' ≠ hashOf v ∧ countTrailing (v ^^^ c') ≤ 13) ∧ countTrailing (v ^^^ c) ≤ 13) ∧
    ((∃ k, Table.read s.lut (hashOf v) = some k ∧ s.index - k ≤ 128) →
      hashOf c = hashOf v ∧ 14 ≤ countTrailing (v ^^^ c))

/-! ## The encoder (43_encoder.md) -/

/-- ENC_START and DEC_START (43 R180, 44 R210, 10 R40), in every mode: the job state is cleared, `MODE` is `ENC` or
`DEC_LOAD`, DEC_START puts its count in `REMAINING`, the answer is `OK 0`, and the build and what the host issues stay. -/
def Obligations.StartCommandsOpenAJob : Prop :=
  ∀ (s : State) (count : BitVec 64),
    let cleared (t : State) : Prop :=
      t.index = 0 ∧ t.pb = none ∧ t.wpart = 0 ∧ t.wfill = 0 ∧ t.out = [] ∧ t.outLen = 0 ∧
      (∀ a, Table.read t.inMem a = none) ∧ t.inLen = 0 ∧ t.rdPos = 0 ∧ t.cause = none ∧
      (∀ k, Table.read t.ring k = none) ∧ (∀ h, Table.read t.lut h = none) ∧
      t.config = s.config ∧ t.port = s.port ∧ t.rsps = s.rsps ++ [responseWord .ok 0]
    (∃ t, exec .encStart s = .next t ∧ cleared t ∧ t.mode = .enc) ∧
    ∃ t, exec (.decStart count) s = .next t ∧ cleared t ∧ t.mode = .decLoad ∧ t.remaining = count

/-- ENC_PUSH of the first value (43 R181, R182): the Verbatim record, `PB` unchanged. -/
def Obligations.EncPushWritesVerbatimFirst : Prop :=
  ∀ (s : State) (v : Value), s.config.wf → s.mode = .enc → s.index = 0 →
    ∃ t, exec (.encPush v) s = .next t ∧ Pushed v s t ∧ t.pb = s.pb ∧
      bitsWritten t = bitsWritten s ++ (List.range 64).map (fun k => v.getLsbD (63 - k))

/-- ENC_PUSH of a value the selector found (43 R184): `0`, the distance modulo 128 in 7 bits, `0`; `PB` unchanged. -/
def Obligations.EncPushWritesExactMatch : Prop :=
  ∀ (s : State) (v : Value) (j : Nat),
    s.mode = .enc → 1 ≤ s.index → s.index ≠ 2 ^ s.config.idxW - 1 →
    select s v s.index = .ok (j, v) →
    ∃ t, exec (.encPush v) s = .next t ∧ Pushed v s t ∧ t.pb = s.pb ∧
      bitsWritten t = bitsWritten s ++ [false] ++
        fieldBits 7 (BitVec.ofNat 64 ((s.index - j) % 128)) ++ [false]

/-- ENC_PUSH of a value that leaves more than `BR_THRESHOLD` trailing zeros against the selected one (43 R185): `0`, the
distance, `1`, the bin code, the meaningful length `L = 64 - b - t`, which is 1 to 63, and the low `L` bits of the shifted
xor; `PB` is the bin. -/
def Obligations.EncPushWritesBackRefPayload : Prop :=
  ∀ (s : State) (v : Value) (j : Nat) (c : Value),
    s.mode = .enc → 1 ≤ s.index → s.index ≠ 2 ^ s.config.idxW - 1 →
    select s v s.index = .ok (j, c) → v ≠ c →
    let x := v ^^^ c
    let trail := countTrailing x
    s.config.brThreshold.toNat < trail →
    let b := binOf (countLeading x)
    let len := 64 - binValue b - trail
    1 ≤ len ∧ len ≤ 63 ∧
    ∃ t, exec (.encPush v) s = .next t ∧ Pushed v s t ∧ t.pb = some b ∧
      bitsWritten t = bitsWritten s ++ [false] ++
        fieldBits 7 (BitVec.ofNat 64 ((s.index - j) % 128)) ++ [true] ++
        fieldBits 3 ((encodeBin b).zeroExtend 64) ++ fieldBits 6 (BitVec.ofNat 64 len) ++
        fieldBits len (x >>> trail)

/-- ENC_PUSH of a value at most `BR_THRESHOLD` trailing zeros from the selected one (43 R186, R187, R188): the xor is taken
with the predecessor; when its bin is `PB`, `1 0` and its low `64 - b` bits, `PB` unchanged; else `1 1`, the bin code and
those bits, and `PB` is the bin. -/
def Obligations.EncPushWritesPrevRecord : Prop :=
  ∀ (s : State) (v : Value) (j : Nat) (c p : Value),
    s.mode = .enc → 1 ≤ s.index → s.index ≠ 2 ^ s.config.idxW - 1 →
    select s v s.index = .ok (j, c) → countTrailing (v ^^^ c) ≤ s.config.brThreshold.toNat →
    Table.read s.ring ((s.index - 1) % 128) = some p →
    let x := v ^^^ p
    let b := binOf (countLeading x)
    ∃ t, exec (.encPush v) s = .next t ∧ Pushed v s t ∧ t.pb = some b ∧
      (s.pb = some b →
        bitsWritten t = bitsWritten s ++ [true, false] ++ fieldBits (64 - binValue b) x) ∧
      (s.pb ≠ some b →
        bitsWritten t = bitsWritten s ++ [true, true] ++ fieldBits 3 ((encodeBin b).zeroExtend 64) ++
          fieldBits (64 - binValue b) x)

/-- The encoder never faults (43 R192): from every state of the invariant with an open encode job and room for one more
index, every value is pushed. -/
def Obligations.EncoderNeverFaults : Prop :=
  ∀ (s : State) (v : Value), s.Inv → s.mode = .enc → s.index ≠ 2 ^ s.config.idxW - 1 →
    ∃ t, exec (.encPush v) s = .next t ∧ Pushed v s t

/-- Every record the encoder emits is canonical (43 R193 (a) to (e)). -/
def Obligations.EncoderEmitsCanonicalRecords : Prop :=
  ∀ (s : State) (v : Value) (r : Record), chooseRecord s v = .ok r →
    r.wf = true ∧ r.fitsContext s.index s.pb = true ∧
    (∀ d, r = .exactMatch d → 1 ≤ distanceOf d ∧ distanceOf d ≤ 128) ∧
    (∀ d b (len : BitVec 6) p, r = .backRefPayload d b len p →
      1 ≤ distanceOf d ∧ distanceOf d ≤ 128 ∧ 1 ≤ len.toNat ∧ p.getLsbD 0 = true ∧
      s.config.brThreshold.toNat < 64 - binValue b - len.toNat) ∧
    (∀ x, r = .prevSameBin x → s.pb = some (binOf (countLeading x))) ∧
    (∀ b x, r = .prevNewBin b x → s.pb ≠ some b)

/-- With `BR_THRESHOLD >= 13` the tie-break has no effect on any output (42 R167, R163): a push under `SCAN_TIE = ANY`,
whatever the free choice, does exactly what it does under `NEAREST`. -/
def Obligations.ScanTieHasNoEffect : Prop :=
  ∀ (s t : State) (v : Value), s.Inv → 13 ≤ s.config.brThreshold.toNat → s.config.scanTie = .nearest →
    exec (.encPush v) s = .next t →
    exec (.encPush v) { s with config := { s.config with scanTie := .any } } =
      .next { t with config := { t.config with scanTie := .any } }

/-! ## The decoder (44_decoder.md) -/

/-- DEC_FEED (44 R211, 20 R52): the byte goes to `IN[IN_LEN]` and no other byte of `IN` changes, `IN_LEN` is one more and is
the answer; the two rejects, `WRONG_MODE` first. -/
def Obligations.DecFeedAppendsAByte : Prop :=
  ∀ (s : State) (b : Byte),
    (s.mode = .decLoad → s.inLen ≠ s.config.inCap →
      ∃ t, exec (.decFeed b) s = .next t ∧
        (∀ a, Table.read t.inMem a = if a = s.inLen then some b else Table.read s.inMem a) ∧
        t = { s with
          inMem := t.inMem, inLen := s.inLen + 1,
          rsps := s.rsps ++ [responseWord .ok (BitVec.ofNat 64 (s.inLen + 1))] }) ∧
    (s.mode ≠ .decLoad →
      exec (.decFeed b) s = .next { s with rsps := s.rsps ++ [responseWord .wrongMode 0] }) ∧
    (s.mode = .decLoad → s.inLen = s.config.inCap →
      exec (.decFeed b) s = .next { s with rsps := s.rsps ++ [responseWord .ibufFull 0] })

/-- ENC_FINISH (43 R191): in an encode job the partial byte is flushed, `MODE` is `IDLE`, the answer is `OUT_LEN`, every other
register stays. DEC_END (44 R222): in a decode job `MODE` is `IDLE` and the answer is `RD_POS`, with no check of anything and
no other change. In any other mode each is rejected. -/
def Obligations.CloseCommandsEndTheJob : Prop :=
  ∀ s : State,
    (s.mode = .enc →
      exec .encFinish s = .next { s with
        mode := .idle, wpart := if s.wfill = 0 then s.wpart else 0, wfill := 0,
        out := if s.wfill = 0 then s.out else s.out ++ [s.wpart],
        outLen := if s.wfill = 0 then s.outLen else s.outLen + 1,
        rsps := s.rsps ++ [responseWord .ok (if s.wfill = 0 then s.outLen else s.outLen + 1)] }) ∧
    (s.mode ≠ .enc →
      exec .encFinish s = .next { s with rsps := s.rsps ++ [responseWord .wrongMode 0] }) ∧
    (s.mode = .decLoad ∨ s.mode = .decRun →
      exec .decEnd s =
        .next { s with mode := .idle, rsps := s.rsps ++ [responseWord .ok s.rdPos] }) ∧
    (s.mode ≠ .decLoad → s.mode ≠ .decRun →
      exec .decEnd s = .next { s with rsps := s.rsps ++ [responseWord .wrongMode 0] })

/-- The rejects of ENC_PUSH and of DEC_PULL and the records it executes, in their order (43 R181, 44 R212, 60 R268; vector
K14): nothing but the response changes. -/
def Obligations.JobRejectsComeInOrder : Prop :=
  ∀ (s : State) (v : Value),
    let answer (st : Status) : Result := .next { s with rsps := s.rsps ++ [responseWord st 0] }
    (s.mode ≠ .enc → exec (.encPush v) s = answer .wrongMode) ∧
    (s.mode = .enc → s.index = 2 ^ s.config.idxW - 1 → exec (.encPush v) s = answer .indexFull) ∧
    ∀ i, (i = .decPull ∨ ∃ r, i = Record.toInstr r) →
      (s.mode ≠ .decLoad → s.mode ≠ .decRun → exec i s = answer .wrongMode) ∧
      (s.mode = .decLoad ∨ s.mode = .decRun → s.remaining = 0 → exec i s = answer .countExhausted) ∧
      (s.mode = .decLoad ∨ s.mode = .decRun → s.remaining ≠ 0 → s.index = 2 ^ s.config.idxW - 1 →
        exec i s = answer .indexFull)

/-- Where the model stops by a name of its own (log 8, log 9): a record that cannot stand at this value index is refused, and
the states the spec calls stuck fault (10 R38 (d), 20 R52, 42 R161). -/
def Obligations.StuckStatesStopByName : Prop :=
  ∀ s : State,
    (CanPull s →
      (1 ≤ s.index → ∀ v, exec (.verbatim v) s = .refused .recordOutOfPlace) ∧
      (s.index = 0 → ∀ r : Record, (∀ v, r ≠ .verbatim v) →
        exec r.toInstr s = .refused .recordOutOfPlace) ∧
      (1 ≤ s.index → Table.read s.ring ((s.index - 1) % 128) = none →
        ∀ b x, exec (.prevSameBin x) s = .fault .unpopulatedSlot ∧
          exec (.prevNewBin b x) s = .fault .unpopulatedSlot) ∧
      (1 ≤ s.index → ∀ dist, distanceOf dist ≤ s.index →
        Table.read s.ring ((s.index - distanceOf dist) % 128) = none →
        ∀ b len p, exec (.exactMatch dist) s = .fault .unpopulatedSlot ∧
          exec (.backRefPayload dist b len p) s = .fault .unpopulatedSlot) ∧
      (s.rdPos.toNat < 8 * s.inLen → Table.read s.inMem (s.rdPos.toNat / 8) = none →
        exec .decPull s = .fault .unwrittenInput)) ∧
    (s.mode = .enc → 1 ≤ s.index → s.index ≠ 2 ^ s.config.idxW - 1 →
      ∀ v j, Table.read s.lut (hashOf v) = some j →
        (s.index ≤ j → exec (.encPush v) s = .fault .lookupAhead) ∧
        (j < s.index → s.index - j ≤ 128 → Table.read s.ring (j % 128) = none →
          exec (.encPush v) s = .fault .unpopulatedSlot))

/-- DEC_PULL fetches a record and executes it (30, opening; 44 R212 to R221): it does what that record, as an instruction,
does, and the record ends where the bits read end. -/
def Obligations.PullExecutesTheFetchedRecord : Prop :=
  ∀ (s : State) (r : Record) (pos : Nat), fetchRecord s = .ok (r, pos) →
    exec .decPull s = exec r.toInstr s ∧ pos = s.rdPos.toNat + recordLength s.pb r

/-- DEC_PULL completes: where a pull is accepted and the bits at `RD_POS` are those of a record that fits, whose
reference is populated, a value is returned and committed, and `RD_POS` moves on by the record's length (44 R212, R221). -/
def Obligations.PullCompletes : Prop :=
  ∀ (s : State) (r : Record), CanPull s → r.wf = true → r.fitsContext s.index s.pb = true →
    Spells (inputBit s) s.rdPos.toNat (encodeRecord s.pb r) →
    (∀ e, 1 ≤ e → e ≤ min s.index 128 → (Table.read s.ring ((s.index - e) % 128)).isSome) →
    ∃ v t, exec .decPull s = .next t ∧ Pulled v (encodeRecord s.pb r).length s t ∧
      t.pb = pbAfter s.pb r

/-- Verbatim (44 R213): at index 0 the value itself, 64 bits; `PB` unchanged. -/
def Obligations.VerbatimReturnsItsValue : Prop :=
  ∀ (s : State) (v : Value), CanPull s → s.index = 0 →
    ∃ t, exec (.verbatim v) s = .next t ∧ Pulled v 64 s t ∧ t.pb = s.pb

/-- ExactMatch (44 R215, R216): the value at its distance, 9 bits, `PB` unchanged; a distance past index 0 faults. -/
def Obligations.ExactMatchReturnsTheReference : Prop :=
  ∀ (s : State) (dist : BitVec 7), CanPull s → 1 ≤ s.index →
    (∀ r, distanceOf dist ≤ s.index → Table.read s.ring ((s.index - distanceOf dist) % 128) = some r →
      ∃ t, exec (.exactMatch dist) s = .next t ∧ Pulled r 9 s t ∧ t.pb = s.pb) ∧
    (s.index < distanceOf dist →
      exec (.exactMatch dist) s = .next { s with
        mode := .fault, cause := some .badDistance,
        rsps := s.rsps ++ [responseWord (.fault .badDistance) 0] })

/-- BackRefPayload (44 R215, R217; 30 R91): the value at its distance xor the `L` payload bits shifted up by `64 - b - L`,
`18 + L` bits, `PB` is the bin; a distance past index 0 faults, and before it a bin and length past 64. -/
def Obligations.BackRefPayloadReturnsTheXor : Prop :=
  ∀ (s : State) (dist : BitVec 7) (b : Bin) (len : BitVec 6) (p : Value), CanPull s → 1 ≤ s.index →
    (∀ r, distanceOf dist ≤ s.index → Table.read s.ring ((s.index - distanceOf dist) % 128) = some r →
      (binValue b + len.toNat ≤ 64 →
        ∃ t, exec (.backRefPayload dist b len p) s = .next t ∧
          Pulled (r ^^^ (lowBits len.toNat p <<< (64 - binValue b - len.toNat))) (18 + len.toNat) s t ∧
          t.pb = some b) ∧
      (64 < binValue b + len.toNat →
        exec (.backRefPayload dist b len p) s = .next { s with
          mode := .fault, cause := some .badLength,
          rsps := s.rsps ++ [responseWord (.fault .badLength) 0] })) ∧
    (s.index < distanceOf dist →
      exec (.backRefPayload dist b len p) s = .next { s with
        mode := .fault, cause := some .badDistance,
        rsps := s.rsps ++ [responseWord (.fault .badDistance) 0] })

/-- PrevSameBin and PrevNewBin (44 R218 to R220): the predecessor xor the low `64 - b` bits of the payload; PrevSameBin takes
`b` from `PB`, is `66 - b` bits long and leaves `PB`, and faults when there is none; PrevNewBin brings its bin, is `69 - b`
bits long and sets `PB`. -/
def Obligations.PrevRecordsReturnTheXor : Prop :=
  ∀ (s : State) (x p : Value), CanPull s → 1 ≤ s.index →
    Table.read s.ring ((s.index - 1) % 128) = some p →
    (∀ b, s.pb = some b →
      ∃ t, exec (.prevSameBin x) s = .next t ∧
        Pulled (p ^^^ lowBits (64 - binValue b) x) (66 - binValue b) s t ∧ t.pb = s.pb) ∧
    (s.pb = none →
      exec (.prevSameBin x) s = .next { s with
        mode := .fault, cause := some .noPrevBin,
        rsps := s.rsps ++ [responseWord (.fault .noPrevBin) 0] }) ∧
    ∀ b, ∃ t, exec (.prevNewBin b x) s = .next t ∧
      Pulled (p ^^^ lowBits (64 - binValue b) x) (69 - binValue b) s t ∧ t.pb = some b

/-- Faults in stream order (60 R268 item 4): `BAD_DISTANCE` before the second control bit is read, `BAD_LENGTH` before the
payload, `NO_PREV_BIN` after the second control bit and before the payload; nothing after those bits matters. -/
def Obligations.FaultsComeInStreamOrder : Prop :=
  ∀ s : State, CanPull s → 1 ≤ s.index →
    let faults (c : FaultCode) : Result := .next { s with
      mode := .fault, cause := some c, rsps := s.rsps ++ [responseWord (.fault c) 0] }
    (∀ dist : BitVec 7, s.index < distanceOf dist →
      Spells (inputBit s) s.rdPos.toNat ([false] ++ fieldBits 7 (dist.zeroExtend 64)) →
      exec .decPull s = faults .badDistance) ∧
    (∀ (dist : BitVec 7) (b : Bin) (len : BitVec 6), distanceOf dist ≤ s.index →
      64 < binValue b + len.toNat →
      Spells (inputBit s) s.rdPos.toNat ([false] ++ fieldBits 7 (dist.zeroExtend 64) ++ [true] ++
        fieldBits 3 ((encodeBin b).zeroExtend 64) ++ fieldBits 6 (len.zeroExtend 64)) →
      exec .decPull s = faults .badLength) ∧
    (s.pb = none → Spells (inputBit s) s.rdPos.toNat [true, false] →
      exec .decPull s = faults .noPrevBin)

/-- `READ_OOB` (60 R264, 30 R94 (a)): a record, or the Verbatim value, of which the input holds only a part. -/
def Obligations.TruncatedRecordReadsOutOfBounds : Prop :=
  ∀ (s : State) (r : Record), CanPull s → r.wf = true → r.fitsContext s.index s.pb = true →
    s.rdPos.toNat ≤ 8 * s.inLen →
    8 * s.inLen < s.rdPos.toNat + (encodeRecord s.pb r).length →
    Spells (inputBit s) s.rdPos.toNat ((encodeRecord s.pb r).take (8 * s.inLen - s.rdPos.toNat)) →
    exec .decPull s = .next { s with
      mode := .fault, cause := some .readOob, rsps := s.rsps ++ [responseWord (.fault .readOob) 0] }

/-- Fault entry is atomic and only a pull enters it (44 R224, 60 R262, R263): an instruction that enters `FAULT` is
DEC_PULL or a record it executes, and leaves everything as it was but `MODE`, `CAUSE` and the response. -/
def Obligations.FaultEntryIsAtomic : Prop :=
  ∀ (i : Instr) (s t : State), s.mode ≠ .fault → exec i s = .next t → t.mode = .fault →
    (i = .decPull ∨ ∃ r, i = Record.toInstr r) ∧
    ∃ c, t = { s with
      mode := .fault, cause := some c, rsps := s.rsps ++ [responseWord (.fault c) 0] }

/-- The decoder is independent of the lookup table, the threshold and the tie-break (44 R225, 10 R37 (b)): a pull with any
of them changed does the same to everything else and answers the same. -/
def Obligations.DecoderIgnoresTheSelector : Prop :=
  ∀ (s t : State) (lut : Table Nat) (br : BitVec 6) (tie : ScanTie),
    exec .decPull s = .next t →
    ∃ lut', exec .decPull { s with
        lut := lut, config := { s.config with brThreshold := br, scanTie := tie } } =
      .next { t with
        lut := lut', config := { t.config with brThreshold := br, scanTie := tie } }

/-- Lock-step (44 R225, 45 R248): a decoder that remembers what the encoder remembers, with the same `PB`, and whose input
at `RD_POS` spells the bits the encoder's push writes, returns the pushed value, and both remember the same again. -/
def Obligations.DecoderKeepsLockStep : Prop :=
  ∀ (hist : List Value) (e d e' : State) (v : Value) (bits : List Bool),
    Remembers hist e → Remembers hist d → e.pb = d.pb →
    e.mode = .enc → e.index ≠ 2 ^ e.config.idxW - 1 → CanPull d →
    exec (.encPush v) e = .next e' → bitsWritten e' = bitsWritten e ++ bits →
    Spells (inputBit d) d.rdPos.toNat bits →
    ∃ d', exec .decPull d = .next d' ∧ Pulled v bits.length d d' ∧ d'.pb = e'.pb ∧
      Remembers (hist ++ [v]) e' ∧ Remembers (hist ++ [v]) d'

/-! ## Control commands (45_control.md) and the outcome classes (60_exceptions.md) -/

/-- READ_CSR (45 R241, 10 R35): the seven registers, in every mode, no state changes; a number past 6 is rejected. -/
def Obligations.ReadCsrReturnsTheRegister : Prop :=
  ∀ s : State,
    let answers (n : BitVec 64) (st : Status) (d : BitVec 64) : Prop :=
      exec (.readCsr n) s = .next { s with rsps := s.rsps ++ [responseWord st d] }
    answers 0 .ok (statusWord s) ∧ answers 1 .ok (BitVec.ofNat 64 s.index) ∧ answers 2 .ok s.remaining ∧
    answers 3 .ok s.outLen ∧ answers 4 .ok (BitVec.ofNat 64 s.inLen) ∧ answers 5 .ok s.rdPos ∧
    answers 6 .ok (configWord s.config) ∧
    ∀ n : BitVec 64, 7 ≤ n.toNat → answers n .badCsr 0

/-- The layouts of `STATUS` and `CONFIG` (10 R36), field by field, their legal values and their reset value; reserved bits read
0. -/
def Obligations.CsrFieldsAreLaidOut : Prop :=
  ∀ s : State,
    let w := statusWord s
    let c := configWord s.config
    w.extractLsb' 0 3 = modeCode s.mode ∧ w.extractLsb' 3 1 = (if s.pb.isSome then 1#1 else 0#1) ∧
    w.extractLsb' 4 3 = (match s.pb with | none => 0#3 | some b => encodeBin b) ∧
    w.extractLsb' 7 1 = 0#1 ∧ w.extractLsb' 8 4 = causeCode s.cause ∧ w.extractLsb' 12 3 = s.wfill ∧
    w.extractLsb' 15 1 = 0#1 ∧ w.extractLsb' 16 8 = s.wpart ∧ w.extractLsb' 24 40 = 0#40 ∧
    c.extractLsb' 0 6 = s.config.brThreshold ∧ c.extractLsb' 6 2 = 0#2 ∧
    c.extractLsb' 8 8 = BitVec.ofNat 8 s.config.idxW ∧
    (c.extractLsb' 16 48).toNat = min s.config.inCap (2 ^ 48 - 1) ∧
    (modeCode s.mode).toNat ≤ 4 ∧ (causeCode s.cause).toNat ∈ [0, 8, 9, 10, 11] ∧ statusWord State.reset = 0

/-- SOFT_RESET (45 R242, 70 R290), `OP` 0x9 with any `ARG`, in every mode: the state is that of power-on reset, of the same
build, and the answer is `OK 0`. -/
def Obligations.SoftResetIsPowerOnReset : Prop :=
  ∀ (s : State) (arg : BitVec 64),
    let t : State := { State.reset with
      config := s.config, port := s.port, rsps := s.rsps ++ [responseWord .ok 0], pick := s.pick }
    exec .softReset s = .next t ∧ exec (decodeCommand (0x9#4 ++ arg)) s = .next t

/-- NOP (45 R240), `OP` 0x0 with any `ARG`, answers `OK 0`, and every word with `OP` 0xA to 0xF (45 R243) is rejected with
`ILLEGAL_OP`, both in every mode, and no state changes. -/
def Obligations.NopAndReservedChangeNothing : Prop :=
  ∀ (s : State) (op : BitVec 4) (arg : BitVec 64),
    exec .nop s = .next { s with rsps := s.rsps ++ [responseWord .ok 0] } ∧
    exec (decodeCommand (0x0#4 ++ arg)) s = .next { s with rsps := s.rsps ++ [responseWord .ok 0] } ∧
    exec (.reserved op) s = .next { s with rsps := s.rsps ++ [responseWord .illegalOp 0] } ∧
    (10 ≤ op.toNat → exec (decodeCommand (op ++ arg)) s =
      .next { s with rsps := s.rsps ++ [responseWord .illegalOp 0] })

/-- The mode legality table (45 R244): a command is rejected with `WRONG_MODE` exactly where the table has a dash, and then
nothing but the response changes. R244 has no row for a record: that a record as an instruction has the row of DEC_PULL is
the model's choice (DESIGN CHOICE, log 10). -/
def Obligations.ModeLegalityTable : Prop :=
  ∀ (i : Instr) (s : State),
    exec i s = .next { s with rsps := s.rsps ++ [responseWord .wrongMode 0] } ↔
      legalIn s.mode i = false

/-- One response per command (45 R245, 30 R98): every command answers exactly once, and `DATA` is 0 on any status but
`OK`. -/
def Obligations.OneResponsePerCommand : Prop :=
  ∀ (i : Instr) (s t : State), exec i s = .next t →
    ∃ st d, t.rsps = s.rsps ++ [responseWord st d] ∧ (st ≠ .ok → d = 0) ∧
      (responseWord st d).extractLsb' 64 4 = statusCode st ∧ (responseWord st d).extractLsb' 0 64 = d

/-- A reject leaves every state element as it was (60 R261). -/
def Obligations.RejectsChangeNothing : Prop :=
  ∀ (i : Instr) (s t : State) (st : Status), st.isReject = true → exec i s = .next t →
    t.rsps = s.rsps ++ [responseWord st 0] → t = { s with rsps := s.rsps ++ [responseWord st 0] }

/-- Leaving `FAULT` (60 R270): in `FAULT` every instruction but five is rejected; SOFT_RESET, ENC_START and DEC_START leave
it and clear `CAUSE`, and nothing else leaves it. -/
def Obligations.FaultIsLeftByStartingOver : Prop :=
  ∀ (i : Instr) (s t : State), s.mode = .fault → exec i s = .next t →
    (startsOver i = true → t.mode ≠ .fault ∧ t.cause = none) ∧
    (startsOver i = false → t.mode = .fault ∧ t.cause = s.cause ∧
      t = { s with rsps := t.rsps } ∧
      (i ≠ .nop → (∀ n, i ≠ .readCsr n) → ∃ st, st.isReject = true ∧ t.rsps = s.rsps ++ [responseWord st 0]))

/-- While a decode runs its input is frozen (20 R67, 70 R299): no instruction but a start or reset changes `IN` or `IN_LEN` in
`DEC_RUN`, and DEC_FEED is rejected there. -/
def Obligations.InputIsFrozenWhileDecoding : Prop :=
  ∀ (i : Instr) (s t : State), s.mode = .decRun → exec i s = .next t → startsOver i = false →
    (∀ a, Table.read t.inMem a = Table.read s.inMem a) ∧ t.inLen = s.inLen ∧
    ∀ b, i = .decFeed b → t = { s with rsps := s.rsps ++ [responseWord .wrongMode 0] }

/-- What no instruction does (20 R53, 10 R31, R21): the build never changes; unless it starts over, an instruction only adds
bytes to `OUT`, and moves `INDEX` by 1 or not at all, by 1 exactly for a committed value. -/
def Obligations.JobStateOnlyGrows : Prop :=
  ∀ (i : Instr) (s t : State), exec i s = .next t →
    t.config = s.config ∧ t.port = s.port ∧
    (startsOver i = false →
      s.out <+: t.out ∧ (t.index = s.index ∨ t.index = s.index + 1) ∧
      (t.index = s.index → t.ring = s.ring ∧ t.lut = s.lut ∧ t.pb = s.pb ∧ t.rdPos = s.rdPos) ∧
      (t.index = s.index + 1 →
        (∃ v, i = .encPush v) ∨ i = .decPull ∨ ∃ r, i = Record.toInstr r))

/-! ## Steps, invariant, headline results -/

/-- A step (70 R300, R290; 60 R278): the host's next command is decoded and executed; a reset puts the reset state and answers
nothing; with nothing issued the core holds its state. The event list and the idle step are the model's form (log 2). -/
def Obligations.StepRunsTheDecodedCommand : Prop :=
  ∀ (s : State) (rest : List HostEvent),
    (∀ w, s.port = .command w :: rest → step s = exec (decodeCommand w) { s with port := rest }) ∧
    (s.port = .externalReset :: rest →
      step s = .next { State.reset with
        config := s.config, port := rest, rsps := s.rsps, pick := s.pick }) ∧
    (s.port = [] → step s = .next s)

/-- The reset state meets the invariant (10 R38, R39). -/
def Obligations.ResetMeetsTheInvariant : Prop := State.reset.Inv

/-- Every step keeps the invariant (10 R38, R26, R30; 20 R69): the storage stays canonical, the registers stay in range, and
the selector remembers exactly the job's values. -/
def Obligations.StepKeepsTheInvariant : Prop :=
  ∀ s t : State, s.Inv → step s = .next t → t.Inv

/-- No stop is reachable (10 R38 (d), 43 R192, 60 R260): from a state of the invariant every step answers a next state. -/
def Obligations.InvariantStatesNeverStop : Prop :=
  ∀ s : State, s.Inv → ∃ t, step s = .next t

/-- The round-trip law (45 R248; R246, R247): encoding any sequence of values that `IDX_W` admits (43 R192) and decoding the
bytes with its count returns the values, bit for bit and in order, with no reject and no fault, for every `BR_THRESHOLD` and
`SCAN_TIE` of the encoder, and consumes exactly the bits written before the padding. And DECODE of any bytes with any count
(45 R247) completes the full count or ends with the first fault: after pulls that do not fault comes DEC_END, and a pull that
enters `FAULT` is its last command. -/
def Obligations.DecodeInvertsEncode : Prop :=
  (∀ (s d : State) (values : List Value), s.config.wf → d.config.wf → s.config.idxW = d.config.idxW →
    values.length < 2 ^ s.config.idxW →
    ∃ m t, runCommands ([.encStart] ++ values.map .encPush) s = .next m ∧
      runCommands (encodeJob values) s = .next t ∧
      (t.out.length ≤ d.config.inCap →
        ∃ u, runDecode t.out (BitVec.ofNat 64 values.length) d = .next u ∧
          u.rsps = d.rsps ++ [responseWord .ok 0] ++
            (List.range t.out.length).map (fun k => responseWord .ok (BitVec.ofNat 64 (k + 1))) ++
            values.map (responseWord .ok) ++
            [responseWord .ok (BitVec.ofNat 64 (bitsWritten m).length)])) ∧
  ∀ (s m u : State) (bytes : List Byte) (count : BitVec 64) (k : Nat),
    runCommands ([.decStart count] ++ bytes.map .decFeed) s = .next m →
    runCommands (List.replicate k .decPull) m = .next u → u.mode ≠ .fault →
    (k = count.toNat → runDecode bytes count s = exec .decEnd u) ∧
    (k < count.toNat → ∀ t, exec .decPull u = .next t → t.mode = .fault →
      runDecode bytes count s = .next t)

/-- The empty-input law (45 R249): encoding nothing gives no bytes, and decoding nothing consumes no bits. -/
def Obligations.EmptyInputIsEmpty : Prop :=
  ∀ s : State,
    ∃ t, runCommands (encodeJob []) s = .next t ∧ t.out = [] ∧ t.outLen = 0 ∧
      t.rsps = s.rsps ++ [responseWord .ok 0, responseWord .ok 0] ∧
      ∃ u, runDecode [] 0 t = .next u ∧
        u.rsps = t.rsps ++ [responseWord .ok 0, responseWord .ok 0]
end

