-- ==== Sys2Proof/Laws/Operands.lean ====
section
/-!
SUPPORT. Laws of the pure computations: counts, bins, distance coding, bit fields.
-/

namespace Sys2Proof.Machine

/-! ## Counts (41 R140, R141) -/

theorem find_range_le {p : Nat → Bool} (n : Nat) : ((List.range n).find? p).getD n ≤ n := by
  cases h : (List.range n).find? p with
  | none => simp
  | some k => simpa using Nat.le_of_lt (List.mem_range.1 (List.mem_of_find?_eq_some h))

theorem find_range_below {p : Nat → Bool} {n k : Nat} (hk : k < ((List.range n).find? p).getD n) :
    p k = false := by
  cases h : (List.range n).find? p with
  | none =>
    rw [h] at hk
    simpa using List.find?_eq_none.1 h k (List.mem_range.2 (by simpa using hk))
  | some m =>
    rw [h] at hk
    have hm : m < n := List.mem_range.1 (List.mem_of_find?_eq_some h)
    have hkm : k < m := by simpa using hk
    have hfind := List.find?_eq_some_iff_getElem.1 h
    obtain ⟨-, i, hi, hget, hbefore⟩ := hfind
    have him : i = m := by simpa using hget
    have := hbefore k (by omega)
    simpa using this

theorem find_range_at {p : Nat → Bool} {n : Nat} (h : ((List.range n).find? p).getD n ≠ n) :
    p (((List.range n).find? p).getD n) = true := by
  cases hf : (List.range n).find? p with
  | none => rw [hf] at h; simp at h
  | some m => simpa using List.find?_some hf

theorem countTrailing_le (x : Value) : countTrailing x ≤ 64 := find_range_le 64

theorem countLeading_le (x : Value) : countLeading x ≤ 64 := find_range_le 64

/-- Below the trailing count every bit is 0. -/
theorem getLsbD_of_lt_countTrailing {x : Value} {k : Nat} (h : k < countTrailing x) :
    x.getLsbD k = false :=
  find_range_below (p := fun k => x.getLsbD k) h

/-- Above the leading count from the top every bit is 0. -/
theorem getMsbD_of_lt_countLeading {x : Value} {k : Nat} (h : k < countLeading x) :
    x.getMsbD k = false :=
  find_range_below (p := fun k => x.getMsbD k) h

theorem countTrailing_eq_iff (x : Value) : countTrailing x = 64 ↔ x = 0 := by
  constructor
  · intro h
    apply BitVec.eq_of_getLsbD_eq
    intro i hi
    simpa using getLsbD_of_lt_countTrailing (by omega : i < countTrailing x)
  · rintro rfl; decide

theorem countLeading_eq_iff (x : Value) : countLeading x = 64 ↔ x = 0 := by
  constructor
  · intro h
    apply BitVec.eq_of_getMsbD_eq
    intro i hi
    simpa using getMsbD_of_lt_countLeading (by omega : i < countLeading x)
  · rintro rfl; decide

/-- The bit at the trailing count is set. -/
theorem getLsbD_countTrailing {x : Value} (h : x ≠ 0) : x.getLsbD (countTrailing x) = true :=
  find_range_at (p := fun k => x.getLsbD k) (mt (countTrailing_eq_iff x).1 h)

/-- The bit at the leading count from the top is set. -/
theorem getMsbD_countLeading {x : Value} (h : x ≠ 0) : x.getMsbD (countLeading x) = true :=
  find_range_at (p := fun k => x.getMsbD k) (mt (countLeading_eq_iff x).1 h)

/-- The two counts of a non-zero word leave room for a set bit (41 R141). -/
theorem countLeading_add_countTrailing {x : Value} (h : x ≠ 0) :
    countLeading x + countTrailing x ≤ 63 := by
  have hl : countLeading x < 64 :=
    Nat.lt_of_le_of_ne (countLeading_le x) (mt (countLeading_eq_iff x).1 h)
  by_contra hcon
  have hlt : 63 - countLeading x < countTrailing x := by omega
  have h1 := getLsbD_of_lt_countTrailing hlt
  have h2 := getMsbD_countLeading h
  simp only [BitVec.getMsbD, hl, decide_true, Bool.true_and] at h2
  rw [show 64 - 1 - countLeading x = 63 - countLeading x by omega, h1] at h2
  exact absurd h2 (by decide)

/-! ## Bins (41 R142 to R147) -/

theorem binValue_le (b : Bin) : binValue b ≤ 24 := by cases b <;> decide

theorem binOf_le (c : Nat) : binValue (binOf c) ≤ c := by
  unfold binOf; repeat' split
  all_goals simp [binValue]
  all_goals omega

theorem le_binOf {c : Nat} {b : Bin} (h : binValue b ≤ c) : binValue b ≤ binValue (binOf c) := by
  have hb : ∀ n, n ∈ [0, 8, 12, 16, 18, 20, 22, 24] → n ≤ c → n ≤ binValue (binOf c) := by
    intro n hn hc
    simp only [List.mem_cons, List.not_mem_nil, or_false] at hn
    unfold binOf; repeat' split
    all_goals simp only [binValue]
    all_goals omega
  exact hb _ (by cases b <;> decide) h

/-- The bin codes are inverse, one way and the other (41 R147). -/
@[simp] theorem decodeBin_encodeBin (b : Bin) : decodeBin (encodeBin b) = b := by cases b <;> rfl

@[simp] theorem encodeBin_decodeBin (k : BitVec 3) : encodeBin (decodeBin k) = k := by
  revert k; decide

/-- Every bin is its own (41 R147). -/
@[simp] theorem binOf_binValue (b : Bin) : binOf (binValue b) = b := by cases b <;> rfl

/-- Rounding down wastes what it takes from the leading count (41 R145). -/
theorem binValue_add_wastedBits (x : Value) :
    binValue (binOf (countLeading x)) + wastedBits x = countLeading x :=
  Nat.add_sub_cancel' (binOf_le _)

/-! ## Distances (30 R88) -/

theorem distanceOf_pos (d : BitVec 7) : 1 ≤ distanceOf d := by
  unfold distanceOf
  split
  · omega
  · rename_i h
    have : d.toNat ≠ 0 := fun h0 => h (BitVec.eq_of_toNat_eq (by simpa using h0))
    omega

theorem distanceOf_le (d : BitVec 7) : distanceOf d ≤ 128 := by
  unfold distanceOf; split <;> omega

/-- The field of a distance in the window stands for that distance. -/
theorem distanceOf_distanceField {d : Nat} (h1 : 1 ≤ d) (h2 : d ≤ 128) :
    distanceOf (distanceField d) = d := by
  rcases Nat.lt_or_eq_of_le h2 with h | rfl
  · have ht : (distanceField d).toNat = d := by
      simp only [distanceField, BitVec.toNat_ofNat]; omega
    have hne : distanceField d ≠ 0 := by
      intro h0
      rw [h0] at ht
      simp at ht
      omega
    rw [distanceOf, if_neg hne, ht]
  · decide

/-! ## Bit fields -/

@[simp] theorem fieldBits_length (n : Nat) (x : Value) : (fieldBits n x).length = n := by
  induction n with
  | zero => rfl
  | succ n ih => simp [fieldBits, ih]

theorem fieldBits_getElem {n : Nat} {x : Value} {k : Nat} (h : k < n) :
    (fieldBits n x)[k]? = some (x.getLsbD (n - 1 - k)) := by
  induction n generalizing k with
  | zero => omega
  | succ n ih =>
    cases k with
    | zero => simp [fieldBits]
    | succ k =>
      simp only [fieldBits, List.getElem?_cons_succ]
      rw [ih (by omega)]
      congr 2
      omega

theorem getLsbD_lowBits (n : Nat) (x : Value) (k : Nat) :
    (lowBits n x).getLsbD k = (decide (k < n) && x.getLsbD k) := by
  simp only [lowBits, BitVec.truncate_eq_setWidth, BitVec.getLsbD_setWidth]
  by_cases h : k < 64
  · simp [h]
  · simp [h, BitVec.getLsbD_of_ge x k (by omega)]

theorem fieldBits_lowBits (n : Nat) (x : Value) : fieldBits n (lowBits n x) = fieldBits n x := by
  suffices h : ∀ m, m ≤ n → fieldBits m (lowBits n x) = fieldBits m x from h n (Nat.le_refl n)
  intro m
  induction m with
  | zero => intro _; rfl
  | succ m ih =>
    intro hm
    simp only [fieldBits, getLsbD_lowBits]
    rw [ih (by omega)]
    simp [show m < n by omega]

/-- A number that fits a field is its own low bits. -/
theorem lowBits_of_fits {n : Nat} {x : Value} (h : x.toNat < 2 ^ n) : lowBits n x = x := by
  apply BitVec.eq_of_getLsbD_eq
  intro i _
  rw [getLsbD_lowBits]
  by_cases hi : i < n
  · simp [hi]
  · have : x.toNat < 2 ^ i := Nat.lt_of_lt_of_le h (Nat.pow_le_pow_right (by omega) (by omega))
    simp [hi, BitVec.getLsbD, Nat.testBit_lt_two_pow this]

theorem lowBits_fits (n : Nat) (x : Value) : (lowBits n x).toNat < 2 ^ n := by
  simp only [lowBits, BitVec.truncate_eq_setWidth, BitVec.toNat_setWidth]
  exact Nat.lt_of_le_of_lt (Nat.mod_le _ _) (Nat.mod_lt _ (Nat.two_pow_pos n))

/-- A word whose bits from `n` on are 0 fits `n` bits. -/
theorem toNat_lt_of_getLsbD {n : Nat} {x : Value} (h : ∀ k, n ≤ k → x.getLsbD k = false) :
    x.toNat < 2 ^ n := by
  have : lowBits n x = x := by
    apply BitVec.eq_of_getLsbD_eq
    intro i _
    rw [getLsbD_lowBits]
    by_cases hi : i < n
    · simp [hi]
    · simp [hi, h i (by omega)]
  rw [← this]
  exact lowBits_fits n x

/-- The rounding-down law (41 R145): a word fits the `64 - b` bits its bin leaves. -/
theorem fits_of_binOf (x : Value) : x.toNat < 2 ^ (64 - binValue (binOf (countLeading x))) := by
  apply toNat_lt_of_getLsbD
  intro k hk
  by_cases h64 : k < 64
  · have hb := binOf_le (countLeading x)
    have hlt : 63 - k < countLeading x := by omega
    have := getMsbD_of_lt_countLeading hlt
    simpa [BitVec.getMsbD, show 63 - k < 64 by omega, show 63 - (63 - k) = k by omega] using this
  · exact BitVec.getLsbD_of_ge x k (by omega)

/-- The payload of a back-reference restores the xor (30 R91): below the trailing count nothing is lost. -/
theorem shiftRight_shiftLeft_countTrailing (x : Value) {t : Nat} (h : t ≤ countTrailing x) :
    (x >>> t) <<< t = x := by
  apply BitVec.eq_of_getLsbD_eq
  intro i hi
  simp only [BitVec.getLsbD_shiftLeft, BitVec.getLsbD_ushiftRight]
  by_cases hit : i < t
  · simp [hit, getLsbD_of_lt_countTrailing (Nat.lt_of_lt_of_le hit h)]
  · simp [hit, hi, show t + (i - t) = i by omega]

end Sys2Proof.Machine
end

