-- ==== Sys2Proof/Laws/Reader.lean ====
section
/-!
SUPPORT. The laws of the bitstream reader (40 R124 to R126, R129): what reading a spelled field gives, and what a
successful read says about the bits.
-/

namespace Sys2Proof.Machine

theorem Spells.nil (src : BitSource) (pos : Nat) : Spells src pos [] := by intro k b h; simp at h

theorem spells_append {src : BitSource} {pos : Nat} {xs ys : List Bool} :
    Spells src pos (xs ++ ys) ↔ Spells src pos xs ∧ Spells src (pos + xs.length) ys := by
  constructor
  · intro h
    refine ⟨fun k b hk => h k b ?_, fun k b hk => ?_⟩
    · rw [List.getElem?_append_left (List.getElem?_eq_some_iff.1 hk).1]; exact hk
    · have := h (xs.length + k) b (by rw [List.getElem?_append_right (by omega)]; simpa using hk)
      rwa [← Nat.add_assoc] at this
  · rintro ⟨h1, h2⟩ k b hk
    by_cases hlt : k < xs.length
    · rw [List.getElem?_append_left hlt] at hk; exact h1 k b hk
    · rw [List.getElem?_append_right (by omega)] at hk
      have := h2 (k - xs.length) b hk
      rwa [show pos + xs.length + (k - xs.length) = pos + k by omega] at this

theorem spells_singleton {src : BitSource} {pos : Nat} {b : Bool} :
    Spells src pos [b] ↔ src pos = .ok b := by
  constructor
  · intro h; simpa using h 0 b (by simp)
  · intro h k c hk
    cases k with
    | zero => simp only [List.getElem?_cons_zero, Option.some.injEq] at hk; subst hk; simpa using h
    | succ k => simp at hk

theorem spells_cons {src : BitSource} {pos : Nat} {b : Bool} {bs : List Bool} :
    Spells src pos (b :: bs) ↔ src pos = .ok b ∧ Spells src (pos + 1) bs := by
  have := spells_append (src := src) (pos := pos) (xs := [b]) (ys := bs)
  simpa [spells_singleton] using this

theorem getLsbD_bitValue (b : Bool) (k : Nat) : (bitValue b).getLsbD k = (decide (k = 0) && b) := by
  cases b
  · simp [bitValue]
  · cases k <;> simp [bitValue, BitVec.getLsbD, Nat.testBit_succ]

/-- The top bit of a field, put above the rest. -/
theorem field_step (acc x : Value) (n : Nat) :
    (((acc <<< 1) ||| bitValue (x.getLsbD n)) <<< n) ||| lowBits n x =
      (acc <<< (n + 1)) ||| lowBits (n + 1) x := by
  apply BitVec.eq_of_getLsbD_eq
  intro i hi
  simp only [BitVec.getLsbD_or, BitVec.getLsbD_shiftLeft, getLsbD_lowBits, getLsbD_bitValue, hi,
    decide_true, Bool.true_and]
  rcases Nat.lt_trichotomy i n with h | h | h
  · simp [h, show i < n + 1 by omega]
  · subst h; simp
  · simp [show ¬ i < n by omega, show ¬ i < n + 1 by omega, show i - n ≠ 0 by omega,
      show i - n - 1 = i - (n + 1) by omega, show i - n < 64 by omega]

theorem readBits_spelled_acc {src : BitSource} {n pos : Nat} {x : Value} (acc : Value)
    (h : Spells src pos (fieldBits n x)) :
    readBits src n pos acc = .ok ((acc <<< n) ||| lowBits n x, pos + n) := by
  induction n generalizing pos acc with
  | zero =>
    have : lowBits 0 x = 0 := by apply BitVec.eq_of_getLsbD_eq; intro i _; simp [getLsbD_lowBits]
    simp [readBits, this]
  | succ n ih =>
    obtain ⟨hbit, hrest⟩ := spells_cons.1 h
    rw [readBits, hbit]
    simp only [bind, Except.bind]
    rw [ih _ hrest, field_step, show pos + 1 + n = pos + (n + 1) by omega]

/-- Reading a spelled field gives its number (40 R129). -/
theorem readBits_spelled {src : BitSource} {n pos : Nat} {x : Value}
    (h : Spells src pos (fieldBits n x)) :
    readBits src n pos 0 = .ok (lowBits n x, pos + n) := by
  simpa using readBits_spelled_acc 0 h

theorem readBits_ok_acc {src : BitSource} {n pos p : Nat} {acc v : Value} (hn : n ≤ 64)
    (h : readBits src n pos acc = .ok (v, p)) :
    p = pos + n ∧ Spells src pos (fieldBits n v) ∧ v = (acc <<< n) ||| lowBits n v := by
  induction n generalizing pos acc with
  | zero =>
    simp only [readBits, Except.ok.injEq, Prod.mk.injEq] at h
    obtain ⟨rfl, rfl⟩ := h
    refine ⟨rfl, Spells.nil _ _, ?_⟩
    have : lowBits 0 acc = 0 := by apply BitVec.eq_of_getLsbD_eq; intro i _; simp [getLsbD_lowBits]
    simp [this]
  | succ n ih =>
    rw [readBits] at h
    cases hb : src pos with
    | error e => rw [hb] at h; simp [bind, Except.bind] at h
    | ok b =>
      rw [hb] at h
      simp only [bind, Except.bind] at h
      obtain ⟨hp, hs, hv⟩ := ih (by omega) h
      have hbit : v.getLsbD n = b := by
        rw [hv]
        simp only [BitVec.getLsbD_or, BitVec.getLsbD_shiftLeft, getLsbD_lowBits, getLsbD_bitValue,
          show n < 64 by omega]
        simp
      refine ⟨by omega, spells_cons.2 ⟨by rw [hb, hbit], hs⟩, ?_⟩
      rw [← field_step, hbit]
      exact hv

/-- A read that succeeds tells the bits it read, and its number fits the field (40 R125). -/
theorem readBits_ok {src : BitSource} {n pos p : Nat} {v : Value} (hn : n ≤ 64)
    (h : readBits src n pos 0 = .ok (v, p)) :
    p = pos + n ∧ Spells src pos (fieldBits n v) ∧ v.toNat < 2 ^ n := by
  obtain ⟨hp, hs, hv⟩ := readBits_ok_acc hn h
  refine ⟨hp, hs, ?_⟩
  have : v = lowBits n v := by simpa using hv
  rw [this]
  exact lowBits_fits n v

/-- A read fails where its first failing bit fails (40 R125). -/
theorem readBits_error {src : BitSource} {n pos : Nat} {acc : Value} {e : ReadStop} :
    readBits src n pos acc = .error e ↔
      ∃ k, k < n ∧ src (pos + k) = .error e ∧ ∀ j, j < k → ∃ b, src (pos + j) = .ok b := by
  induction n generalizing pos acc with
  | zero => simp [readBits]
  | succ n ih =>
    rw [readBits]
    cases hb : src pos with
    | error e' =>
      simp only [bind, Except.bind, Except.error.injEq]
      constructor
      · rintro rfl
        exact ⟨0, by omega, by simpa using hb, by simp⟩
      · rintro ⟨k, _, hk, hj⟩
        cases k with
        | zero => rw [Nat.add_zero, hb] at hk; exact Except.error.inj hk
        | succ k => obtain ⟨b, hb'⟩ := hj 0 (by omega); rw [Nat.add_zero, hb] at hb'; cases hb'
    | ok b =>
      simp only [bind, Except.bind, ih]
      constructor
      · rintro ⟨k, hk, he, hj⟩
        refine ⟨k + 1, by omega, by rw [← he]; congr 1; omega, fun j hjk => ?_⟩
        cases j with
        | zero => exact ⟨b, by simpa using hb⟩
        | succ j =>
          obtain ⟨c, hc⟩ := hj j (by omega)
          exact ⟨c, by rw [← hc]; congr 1; omega⟩
      · rintro ⟨k, hk, he, hj⟩
        cases k with
        | zero => rw [Nat.add_zero, hb] at he; cases he
        | succ k =>
          refine ⟨k, by omega, by rw [← he]; congr 1; omega, fun j hjk => ?_⟩
          obtain ⟨c, hc⟩ := hj (j + 1) (by omega)
          exact ⟨c, by rw [← hc]; congr 1; omega⟩

/-- The input past its end (40 R124). -/
theorem inputBit_past {s : State} {p : Nat} (h : 8 * s.inLen ≤ p) :
    inputBit s p = .error (.violation .readOob) := by simp [inputBit, h]

/-- Every bit of a loaded input can be read (20 R52). -/
theorem inputBit_loaded {s : State} (hl : ∀ a, a < s.inLen → (Table.read s.inMem a).isSome) {p : Nat}
    (h : p < 8 * s.inLen) : ∃ b, inputBit s p = .ok b := by
  have ha : p / 8 < s.inLen := by omega
  obtain ⟨w, hw⟩ := Option.isSome_iff_exists.1 (hl _ ha)
  exact ⟨w.getLsbD (7 - p % 8), by simp [inputBit, show ¬ 8 * s.inLen ≤ p by omega, hw]⟩

/-- A bit that can be read lies within the input (40 R124). -/
theorem lt_of_inputBit_ok {s : State} {p : Nat} {b : Bool} (h : inputBit s p = .ok b) :
    p < 8 * s.inLen := by
  by_contra hp
  rw [inputBit_past (by omega)] at h
  cases h

end Sys2Proof.Machine
end

