-- ==== Sys2Proof/Laws/Codec.lean ====
section
/-!
SUPPORT. The laws of the encodings (30_encoding.md) that proofs about decoding cite: the fields of a command word, fields
cut to their width, and how a sequence of reads answers.
-/

namespace Sys2Proof.Machine

/-! ## Command and response words (30 R97, R98) -/

theorem append_toNat (op : BitVec 4) (arg : BitVec 64) : (op ++ arg).toNat = op.toNat * 2 ^ 64 + arg.toNat := by
  rw [BitVec.toNat_append, ← Nat.shiftLeft_add_eq_or_of_lt arg.isLt, Nat.shiftLeft_eq]

@[simp] theorem extract_high (op : BitVec 4) (arg : BitVec 64) : (op ++ arg).extractLsb' 64 4 = op := by
  apply BitVec.eq_of_toNat_eq
  have h := arg.isLt
  simp only [BitVec.extractLsb'_toNat, append_toNat, Nat.shiftRight_eq_div_pow]
  omega

@[simp] theorem extract_low (op : BitVec 4) (arg : BitVec 64) : (op ++ arg).extractLsb' 0 64 = arg := by
  apply BitVec.eq_of_toNat_eq
  have h := arg.isLt
  simp only [BitVec.extractLsb'_toNat, append_toNat, Nat.shiftRight_eq_div_pow]
  omega

@[simp] theorem extract_byte (b : Byte) : (0#56 ++ b : BitVec 64).extractLsb' 0 8 = b := by
  apply BitVec.eq_of_toNat_eq
  have h := b.isLt
  simp only [BitVec.extractLsb'_toNat, BitVec.toNat_append, Nat.shiftRight_eq_div_pow]
  simp; omega

/-! ## Fields (20 R56) -/

/-- A field read back at its width is the field. -/
theorem truncate_lowBits {n : Nat} (hn : n ≤ 64) (d : BitVec n) :
    (lowBits n (d.zeroExtend 64)).truncate n = d := by
  apply BitVec.eq_of_getLsbD_eq; intro i hi
  simp only [BitVec.truncate_eq_setWidth, BitVec.getLsbD_setWidth, getLsbD_lowBits]
  simp [hi, show i < 64 by omega]

/-- The bits of a field depend on its low bits only. -/
theorem fieldBits_truncate {n : Nat} (v : Value) :
    fieldBits n ((v.truncate n : BitVec n).zeroExtend 64) = fieldBits n v := by
  have : ((v.truncate n : BitVec n).zeroExtend 64) = lowBits n v := rfl
  rw [this, fieldBits_lowBits]

/-- The bits of a field by position. -/
theorem map_range_field (n : Nat) (x : Value) :
    (List.range n).map (fun k => x.getLsbD (n - 1 - k)) = fieldBits n x := by
  apply List.ext_getElem?
  intro i
  by_cases h : i < n
  · rw [fieldBits_getElem h]; simp [h]
  · rw [List.getElem?_eq_none (by simp; omega), List.getElem?_eq_none (by simp; omega)]

/-- The length field as a number. -/
theorem lowBits_len (len : BitVec 6) : (lowBits 6 (len.zeroExtend 64)).toNat = len.toNat := by
  have := len.isLt
  rw [lowBits_of_fits] <;> simp <;> omega

/-- The length of a record is that of its bits (30 R87). -/
theorem encodeRecord_length (pb : Option Bin) (r : Record) :
    (encodeRecord pb r).length = recordLength pb r := by
  cases r <;> simp [encodeRecord, recordLength] <;> omega

theorem encodeRecord_ne_nil (pb : Option Bin) (r : Record) : encodeRecord pb r ≠ [] := by
  cases r <;> simp [encodeRecord, fieldBits]

/-! ## Sequences of reads -/

theorem bind_ok {α β ε : Type} {x : Except ε α} {f : α → Except ε β} {b : β} :
    (x >>= f) = .ok b ↔ ∃ a, x = .ok a ∧ f a = .ok b := by
  cases x <;> simp [bind, Except.bind]

theorem bind_error {α β ε : Type} {x : Except ε α} {f : α → Except ε β} {e : ε} :
    (x >>= f) = .error e ↔ x = .error e ∨ ∃ a, x = .ok a ∧ f a = .error e := by
  cases x <;> simp [bind, Except.bind]

/-- A bit of a string of which the input, ending at `stop`, may hold only a part (40 R124). -/
theorem bit_or_stop {src : BitSource} {pos stop : Nat} {e : ReadStop} {b : Bool} {ys : List Bool}
    (hE : ∀ p, stop ≤ p → src p = .error e) (hle : pos ≤ stop)
    (hsp : Spells src pos ((b :: ys).take (stop - pos))) :
    src pos = .error e ∨
      (src pos = .ok b ∧ pos + 1 ≤ stop ∧ Spells src (pos + 1) (ys.take (stop - (pos + 1)))) := by
  by_cases h : pos = stop
  · exact .inl (hE _ (by omega))
  · right
    rw [show stop - pos = (stop - (pos + 1)) + 1 by omega, List.take_succ_cons] at hsp
    obtain ⟨a, b⟩ := spells_cons.1 hsp
    exact ⟨a, by omega, b⟩

/-- A field cut short by the end of the input stops there (40 R125). -/
theorem readBits_cut {src : BitSource} {n pos stop : Nat} {x acc : Value} {e : ReadStop}
    (hE : ∀ p, stop ≤ p → src p = .error e) (hsp : Spells src pos ((fieldBits n x).take (stop - pos)))
    (h1 : pos ≤ stop) (h2 : stop < pos + n) : readBits src n pos acc = .error e := by
  refine readBits_error.2 ⟨stop - pos, by omega, hE _ (by omega), ?_⟩
  intro j hj
  refine ⟨x.getLsbD (n - 1 - j), hsp j _ ?_⟩
  rw [List.getElem?_take, if_pos hj, fieldBits_getElem (by omega)]

/-- A field of a string of which the input may hold only a part. -/
theorem field_or_stop {src : BitSource} {pos stop n : Nat} {x : Value} {e : ReadStop} {ys : List Bool}
    (hE : ∀ p, stop ≤ p → src p = .error e) (hle : pos ≤ stop)
    (hsp : Spells src pos ((fieldBits n x ++ ys).take (stop - pos))) :
    readBits src n pos 0 = .error e ∨
      (readBits src n pos 0 = .ok (lowBits n x, pos + n) ∧ pos + n ≤ stop ∧
        Spells src (pos + n) (ys.take (stop - (pos + n)))) := by
  rw [List.take_append] at hsp
  obtain ⟨hx, hy⟩ := spells_append.1 hsp
  by_cases h : stop < pos + n
  · exact .inl (readBits_cut hE hx hle h)
  · right
    rw [List.take_of_length_le (by simp; omega)] at hx hy
    refine ⟨readBits_spelled hx, by omega, ?_⟩
    simpa [Nat.sub_sub] using hy

/-! ## The loaded input -/

theorem inputBit_congr {s t : State} (h1 : t.inLen = s.inLen) (h2 : t.inMem = s.inMem) :
    inputBit t = inputBit s := by
  funext p; simp [inputBit, h1, h2]

/-- Bits that can be read lie within the input. -/
theorem spells_le_input {s : State} {pos : Nat} {bits : List Bool} (h : Spells (inputBit s) pos bits)
    (hn : bits ≠ []) : pos + bits.length ≤ 8 * s.inLen := by
  have hl : 0 < bits.length := List.length_pos_of_ne_nil hn
  have := h (bits.length - 1) _ (List.getElem?_eq_getElem (by omega))
  have := lt_of_inputBit_ok this
  omega

end Sys2Proof.Machine
end

