-- ==== Sys2Proof/Laws/State.lean ====
section
/-!
SUPPORT. What each named update does to each field of the state, so that no proof unfolds a record update.
-/

namespace Sys2Proof.Machine

variable (s : State)

@[simp] theorem update_mode (v : Value) (i : Nat) : (update v i s).mode = s.mode := rfl
@[simp] theorem update_index (v : Value) (i : Nat) : (update v i s).index = s.index := rfl
@[simp] theorem update_remaining (v : Value) (i : Nat) : (update v i s).remaining = s.remaining := rfl
@[simp] theorem update_pb (v : Value) (i : Nat) : (update v i s).pb = s.pb := rfl
@[simp] theorem update_wpart (v : Value) (i : Nat) : (update v i s).wpart = s.wpart := rfl
@[simp] theorem update_wfill (v : Value) (i : Nat) : (update v i s).wfill = s.wfill := rfl
@[simp] theorem update_out (v : Value) (i : Nat) : (update v i s).out = s.out := rfl
@[simp] theorem update_outLen (v : Value) (i : Nat) : (update v i s).outLen = s.outLen := rfl
@[simp] theorem update_inMem (v : Value) (i : Nat) : (update v i s).inMem = s.inMem := rfl
@[simp] theorem update_inLen (v : Value) (i : Nat) : (update v i s).inLen = s.inLen := rfl
@[simp] theorem update_rdPos (v : Value) (i : Nat) : (update v i s).rdPos = s.rdPos := rfl
@[simp] theorem update_cause (v : Value) (i : Nat) : (update v i s).cause = s.cause := rfl
@[simp] theorem update_ring (v : Value) (i : Nat) : (update v i s).ring = Table.write s.ring (slotOf i) v := rfl
@[simp] theorem update_lut (v : Value) (i : Nat) : (update v i s).lut = Table.write s.lut (hashOf v) i := rfl
@[simp] theorem update_config (v : Value) (i : Nat) : (update v i s).config = s.config := rfl
@[simp] theorem update_port (v : Value) (i : Nat) : (update v i s).port = s.port := rfl
@[simp] theorem update_rsps (v : Value) (i : Nat) : (update v i s).rsps = s.rsps := rfl
@[simp] theorem update_pick (v : Value) (i : Nat) : (update v i s).pick = s.pick := rfl

@[simp] theorem respond_mode (st : Status) (d : BitVec 64) : (respond st d s).mode = s.mode := rfl
@[simp] theorem respond_index (st : Status) (d : BitVec 64) : (respond st d s).index = s.index := rfl
@[simp] theorem respond_remaining (st : Status) (d : BitVec 64) : (respond st d s).remaining = s.remaining := rfl
@[simp] theorem respond_pb (st : Status) (d : BitVec 64) : (respond st d s).pb = s.pb := rfl
@[simp] theorem respond_wpart (st : Status) (d : BitVec 64) : (respond st d s).wpart = s.wpart := rfl
@[simp] theorem respond_wfill (st : Status) (d : BitVec 64) : (respond st d s).wfill = s.wfill := rfl
@[simp] theorem respond_out (st : Status) (d : BitVec 64) : (respond st d s).out = s.out := rfl
@[simp] theorem respond_outLen (st : Status) (d : BitVec 64) : (respond st d s).outLen = s.outLen := rfl
@[simp] theorem respond_inMem (st : Status) (d : BitVec 64) : (respond st d s).inMem = s.inMem := rfl
@[simp] theorem respond_inLen (st : Status) (d : BitVec 64) : (respond st d s).inLen = s.inLen := rfl
@[simp] theorem respond_rdPos (st : Status) (d : BitVec 64) : (respond st d s).rdPos = s.rdPos := rfl
@[simp] theorem respond_cause (st : Status) (d : BitVec 64) : (respond st d s).cause = s.cause := rfl
@[simp] theorem respond_ring (st : Status) (d : BitVec 64) : (respond st d s).ring = s.ring := rfl
@[simp] theorem respond_lut (st : Status) (d : BitVec 64) : (respond st d s).lut = s.lut := rfl
@[simp] theorem respond_config (st : Status) (d : BitVec 64) : (respond st d s).config = s.config := rfl
@[simp] theorem respond_port (st : Status) (d : BitVec 64) : (respond st d s).port = s.port := rfl
@[simp] theorem respond_rsps (st : Status) (d : BitVec 64) : (respond st d s).rsps = s.rsps ++ [responseWord st d] := rfl
@[simp] theorem respond_pick (st : Status) (d : BitVec 64) : (respond st d s).pick = s.pick := rfl

@[simp] theorem enterFault_mode (c : FaultCode) : (enterFault c s).mode = .fault := rfl
@[simp] theorem enterFault_index (c : FaultCode) : (enterFault c s).index = s.index := rfl
@[simp] theorem enterFault_remaining (c : FaultCode) : (enterFault c s).remaining = s.remaining := rfl
@[simp] theorem enterFault_pb (c : FaultCode) : (enterFault c s).pb = s.pb := rfl
@[simp] theorem enterFault_wpart (c : FaultCode) : (enterFault c s).wpart = s.wpart := rfl
@[simp] theorem enterFault_wfill (c : FaultCode) : (enterFault c s).wfill = s.wfill := rfl
@[simp] theorem enterFault_out (c : FaultCode) : (enterFault c s).out = s.out := rfl
@[simp] theorem enterFault_outLen (c : FaultCode) : (enterFault c s).outLen = s.outLen := rfl
@[simp] theorem enterFault_inMem (c : FaultCode) : (enterFault c s).inMem = s.inMem := rfl
@[simp] theorem enterFault_inLen (c : FaultCode) : (enterFault c s).inLen = s.inLen := rfl
@[simp] theorem enterFault_rdPos (c : FaultCode) : (enterFault c s).rdPos = s.rdPos := rfl
@[simp] theorem enterFault_cause (c : FaultCode) : (enterFault c s).cause = some c := rfl
@[simp] theorem enterFault_ring (c : FaultCode) : (enterFault c s).ring = s.ring := rfl
@[simp] theorem enterFault_lut (c : FaultCode) : (enterFault c s).lut = s.lut := rfl
@[simp] theorem enterFault_config (c : FaultCode) : (enterFault c s).config = s.config := rfl
@[simp] theorem enterFault_port (c : FaultCode) : (enterFault c s).port = s.port := rfl
@[simp] theorem enterFault_rsps (c : FaultCode) : (enterFault c s).rsps = s.rsps ++ [responseWord (.fault c) 0] := rfl
@[simp] theorem enterFault_pick (c : FaultCode) : (enterFault c s).pick = s.pick := rfl

@[simp] theorem clearJob_mode : (clearJob s).mode = s.mode := rfl
@[simp] theorem clearJob_index : (clearJob s).index = 0 := rfl
@[simp] theorem clearJob_remaining : (clearJob s).remaining = s.remaining := rfl
@[simp] theorem clearJob_pb : (clearJob s).pb = none := rfl
@[simp] theorem clearJob_wpart : (clearJob s).wpart = 0 := rfl
@[simp] theorem clearJob_wfill : (clearJob s).wfill = 0 := rfl
@[simp] theorem clearJob_out : (clearJob s).out = [] := rfl
@[simp] theorem clearJob_outLen : (clearJob s).outLen = 0 := rfl
@[simp] theorem clearJob_inMem : (clearJob s).inMem = [] := rfl
@[simp] theorem clearJob_inLen : (clearJob s).inLen = 0 := rfl
@[simp] theorem clearJob_rdPos : (clearJob s).rdPos = 0 := rfl
@[simp] theorem clearJob_cause : (clearJob s).cause = none := rfl
@[simp] theorem clearJob_ring : (clearJob s).ring = [] := rfl
@[simp] theorem clearJob_lut : (clearJob s).lut = [] := rfl
@[simp] theorem clearJob_config : (clearJob s).config = s.config := rfl
@[simp] theorem clearJob_port : (clearJob s).port = s.port := rfl
@[simp] theorem clearJob_rsps : (clearJob s).rsps = s.rsps := rfl
@[simp] theorem clearJob_pick : (clearJob s).pick = s.pick := rfl

@[simp] theorem resetCore_mode : (resetCore s).mode = .idle := rfl
@[simp] theorem resetCore_index : (resetCore s).index = 0 := rfl
@[simp] theorem resetCore_remaining : (resetCore s).remaining = 0 := rfl
@[simp] theorem resetCore_pb : (resetCore s).pb = none := rfl
@[simp] theorem resetCore_wpart : (resetCore s).wpart = 0 := rfl
@[simp] theorem resetCore_wfill : (resetCore s).wfill = 0 := rfl
@[simp] theorem resetCore_out : (resetCore s).out = [] := rfl
@[simp] theorem resetCore_outLen : (resetCore s).outLen = 0 := rfl
@[simp] theorem resetCore_inMem : (resetCore s).inMem = [] := rfl
@[simp] theorem resetCore_inLen : (resetCore s).inLen = 0 := rfl
@[simp] theorem resetCore_rdPos : (resetCore s).rdPos = 0 := rfl
@[simp] theorem resetCore_cause : (resetCore s).cause = none := rfl
@[simp] theorem resetCore_ring : (resetCore s).ring = [] := rfl
@[simp] theorem resetCore_lut : (resetCore s).lut = [] := rfl
@[simp] theorem resetCore_config : (resetCore s).config = s.config := rfl
@[simp] theorem resetCore_port : (resetCore s).port = s.port := rfl
@[simp] theorem resetCore_rsps : (resetCore s).rsps = s.rsps := rfl
@[simp] theorem resetCore_pick : (resetCore s).pick = s.pick := rfl

@[simp] theorem appendByte_mode (b : Byte) : (appendByte b s).mode = s.mode := rfl
@[simp] theorem appendByte_index (b : Byte) : (appendByte b s).index = s.index := rfl
@[simp] theorem appendByte_remaining (b : Byte) : (appendByte b s).remaining = s.remaining := rfl
@[simp] theorem appendByte_pb (b : Byte) : (appendByte b s).pb = s.pb := rfl
@[simp] theorem appendByte_wpart (b : Byte) : (appendByte b s).wpart = s.wpart := rfl
@[simp] theorem appendByte_wfill (b : Byte) : (appendByte b s).wfill = s.wfill := rfl
@[simp] theorem appendByte_out (b : Byte) : (appendByte b s).out = s.out ++ [b] := rfl
@[simp] theorem appendByte_outLen (b : Byte) : (appendByte b s).outLen = s.outLen + 1 := rfl
@[simp] theorem appendByte_inMem (b : Byte) : (appendByte b s).inMem = s.inMem := rfl
@[simp] theorem appendByte_inLen (b : Byte) : (appendByte b s).inLen = s.inLen := rfl
@[simp] theorem appendByte_rdPos (b : Byte) : (appendByte b s).rdPos = s.rdPos := rfl
@[simp] theorem appendByte_cause (b : Byte) : (appendByte b s).cause = s.cause := rfl
@[simp] theorem appendByte_ring (b : Byte) : (appendByte b s).ring = s.ring := rfl
@[simp] theorem appendByte_lut (b : Byte) : (appendByte b s).lut = s.lut := rfl
@[simp] theorem appendByte_config (b : Byte) : (appendByte b s).config = s.config := rfl
@[simp] theorem appendByte_port (b : Byte) : (appendByte b s).port = s.port := rfl
@[simp] theorem appendByte_rsps (b : Byte) : (appendByte b s).rsps = s.rsps := rfl
@[simp] theorem appendByte_pick (b : Byte) : (appendByte b s).pick = s.pick := rfl

@[simp] theorem feedByte_mode (b : Byte) : (feedByte b s).mode = s.mode := rfl
@[simp] theorem feedByte_index (b : Byte) : (feedByte b s).index = s.index := rfl
@[simp] theorem feedByte_remaining (b : Byte) : (feedByte b s).remaining = s.remaining := rfl
@[simp] theorem feedByte_pb (b : Byte) : (feedByte b s).pb = s.pb := rfl
@[simp] theorem feedByte_wpart (b : Byte) : (feedByte b s).wpart = s.wpart := rfl
@[simp] theorem feedByte_wfill (b : Byte) : (feedByte b s).wfill = s.wfill := rfl
@[simp] theorem feedByte_out (b : Byte) : (feedByte b s).out = s.out := rfl
@[simp] theorem feedByte_outLen (b : Byte) : (feedByte b s).outLen = s.outLen := rfl
@[simp] theorem feedByte_inMem (b : Byte) : (feedByte b s).inMem = Table.write s.inMem s.inLen b := rfl
@[simp] theorem feedByte_inLen (b : Byte) : (feedByte b s).inLen = s.inLen + 1 := rfl
@[simp] theorem feedByte_rdPos (b : Byte) : (feedByte b s).rdPos = s.rdPos := rfl
@[simp] theorem feedByte_cause (b : Byte) : (feedByte b s).cause = s.cause := rfl
@[simp] theorem feedByte_ring (b : Byte) : (feedByte b s).ring = s.ring := rfl
@[simp] theorem feedByte_lut (b : Byte) : (feedByte b s).lut = s.lut := rfl
@[simp] theorem feedByte_config (b : Byte) : (feedByte b s).config = s.config := rfl
@[simp] theorem feedByte_port (b : Byte) : (feedByte b s).port = s.port := rfl
@[simp] theorem feedByte_rsps (b : Byte) : (feedByte b s).rsps = s.rsps := rfl
@[simp] theorem feedByte_pick (b : Byte) : (feedByte b s).pick = s.pick := rfl

@[simp] theorem commitPush_mode (v : Value) (r : Record) : (commitPush v r s).mode = s.mode := rfl
@[simp] theorem commitPush_index (v : Value) (r : Record) : (commitPush v r s).index = s.index + 1 := rfl
@[simp] theorem commitPush_remaining (v : Value) (r : Record) : (commitPush v r s).remaining = s.remaining := rfl
@[simp] theorem commitPush_pb (v : Value) (r : Record) : (commitPush v r s).pb = pbAfter s.pb r := rfl
@[simp] theorem commitPush_wpart (v : Value) (r : Record) : (commitPush v r s).wpart = s.wpart := rfl
@[simp] theorem commitPush_wfill (v : Value) (r : Record) : (commitPush v r s).wfill = s.wfill := rfl
@[simp] theorem commitPush_out (v : Value) (r : Record) : (commitPush v r s).out = s.out := rfl
@[simp] theorem commitPush_outLen (v : Value) (r : Record) : (commitPush v r s).outLen = s.outLen := rfl
@[simp] theorem commitPush_inMem (v : Value) (r : Record) : (commitPush v r s).inMem = s.inMem := rfl
@[simp] theorem commitPush_inLen (v : Value) (r : Record) : (commitPush v r s).inLen = s.inLen := rfl
@[simp] theorem commitPush_rdPos (v : Value) (r : Record) : (commitPush v r s).rdPos = s.rdPos := rfl
@[simp] theorem commitPush_cause (v : Value) (r : Record) : (commitPush v r s).cause = s.cause := rfl
@[simp] theorem commitPush_ring (v : Value) (r : Record) : (commitPush v r s).ring = Table.write s.ring (slotOf s.index) v := rfl
@[simp] theorem commitPush_lut (v : Value) (r : Record) : (commitPush v r s).lut = Table.write s.lut (hashOf v) s.index := rfl
@[simp] theorem commitPush_config (v : Value) (r : Record) : (commitPush v r s).config = s.config := rfl
@[simp] theorem commitPush_port (v : Value) (r : Record) : (commitPush v r s).port = s.port := rfl
@[simp] theorem commitPush_rsps (v : Value) (r : Record) : (commitPush v r s).rsps = s.rsps := rfl
@[simp] theorem commitPush_pick (v : Value) (r : Record) : (commitPush v r s).pick = s.pick + 1 := rfl

@[simp] theorem commitPull_mode (v : Value) (r : Record) (p : Nat) : (commitPull v r p s).mode = .decRun := rfl
@[simp] theorem commitPull_index (v : Value) (r : Record) (p : Nat) : (commitPull v r p s).index = s.index + 1 := rfl
@[simp] theorem commitPull_remaining (v : Value) (r : Record) (p : Nat) : (commitPull v r p s).remaining = s.remaining - 1 := rfl
@[simp] theorem commitPull_pb (v : Value) (r : Record) (p : Nat) : (commitPull v r p s).pb = pbAfter s.pb r := rfl
@[simp] theorem commitPull_wpart (v : Value) (r : Record) (p : Nat) : (commitPull v r p s).wpart = s.wpart := rfl
@[simp] theorem commitPull_wfill (v : Value) (r : Record) (p : Nat) : (commitPull v r p s).wfill = s.wfill := rfl
@[simp] theorem commitPull_out (v : Value) (r : Record) (p : Nat) : (commitPull v r p s).out = s.out := rfl
@[simp] theorem commitPull_outLen (v : Value) (r : Record) (p : Nat) : (commitPull v r p s).outLen = s.outLen := rfl
@[simp] theorem commitPull_inMem (v : Value) (r : Record) (p : Nat) : (commitPull v r p s).inMem = s.inMem := rfl
@[simp] theorem commitPull_inLen (v : Value) (r : Record) (p : Nat) : (commitPull v r p s).inLen = s.inLen := rfl
@[simp] theorem commitPull_rdPos (v : Value) (r : Record) (p : Nat) : (commitPull v r p s).rdPos = BitVec.ofNat 64 p := rfl
@[simp] theorem commitPull_cause (v : Value) (r : Record) (p : Nat) : (commitPull v r p s).cause = s.cause := rfl
@[simp] theorem commitPull_ring (v : Value) (r : Record) (p : Nat) : (commitPull v r p s).ring = Table.write s.ring (slotOf s.index) v := rfl
@[simp] theorem commitPull_lut (v : Value) (r : Record) (p : Nat) : (commitPull v r p s).lut = Table.write s.lut (hashOf v) s.index := rfl
@[simp] theorem commitPull_config (v : Value) (r : Record) (p : Nat) : (commitPull v r p s).config = s.config := rfl
@[simp] theorem commitPull_port (v : Value) (r : Record) (p : Nat) : (commitPull v r p s).port = s.port := rfl
@[simp] theorem commitPull_rsps (v : Value) (r : Record) (p : Nat) : (commitPull v r p s).rsps = s.rsps := rfl
@[simp] theorem commitPull_pick (v : Value) (r : Record) (p : Nat) : (commitPull v r p s).pick = s.pick := rfl

end Sys2Proof.Machine
end

