-- ==== Sys2Proof/Laws/Steps.lean ====
section
/-!
SUPPORT. Everything an instruction that answers a next state can do, said once: later proofs take the cases of `Steps`
apart and never unfold the meanings again.
-/

namespace Sys2Proof.Machine

/-- What an instruction can do to the state when it answers a next state. -/
inductive Steps : Instr → State → State → Prop
  | rejected {i s} (st : Status) (h : st.isReject = true) : Steps i s (reject st s)
  | nop {s} : Steps .nop s (respondOk 0 s)
  | readCsr {s n} (d : BitVec 64) (h : csr n s = some d) : Steps (.readCsr n) s (respondOk d s)
  | softReset {s} : Steps .softReset s (respondOk 0 (resetCore s))
  | encStart {s} : Steps .encStart s (respondOk 0 { clearJob s with mode := .enc, remaining := 0 })
  | encPush {s v} (r : Record) (hm : s.mode = .enc) (hf : indexFull s = false)
      (hr : chooseRecord s v = .ok r) :
      Steps (.encPush v) s (respondOk (commitPush v r (emit r s)).outLen (commitPush v r (emit r s)))
  | encFinish {s} (hm : s.mode = .enc) :
      Steps .encFinish s (respondOk (finish s).outLen { finish s with mode := .idle })
  | decStart {s n} : Steps (.decStart n) s (respondOk 0 { clearJob s with mode := .decLoad, remaining := n })
  | decFeed {s b} (hm : s.mode = .decLoad) (hc : s.inLen ≠ s.config.inCap) :
      Steps (.decFeed b) s (respondOk (BitVec.ofNat 64 (feedByte b s).inLen) (feedByte b s))
  | pulled {s} (r : Record) (pos : Nat) (v : Value) (hg : pullReject s = none)
      (hr : fetchRecord s = .ok (r, pos)) (hv : recordValue r s = .ok v) :
      Steps .decPull s (respondOk v (commitPull v r pos s))
  | pullFault {s} (c : FaultCode) (hg : pullReject s = none) : Steps .decPull s (enterFault c s)
  | executed {s} (r : Record) (v : Value) (hg : pullReject s = none) (hp : inPlace r s.index = true)
      (hv : recordValue r s = .ok v) :
      Steps r.toInstr s (respondOk v (commitPull v r (s.rdPos.toNat + recordLength s.pb r) s))
  | recordFault {s} (r : Record) (c : FaultCode) (hg : pullReject s = none) :
      Steps r.toInstr s (enterFault c s)
  | decEnd {s} (hm : s.mode = .decLoad ∨ s.mode = .decRun) :
      Steps .decEnd s (respondOk s.rdPos { s with mode := .idle })

theorem pullReject_isReject {s : State} {st : Status} (h : pullReject s = some st) : st.isReject = true := by
  unfold pullReject at h
  repeat' split at h
  all_goals first | (cases h; rfl) | cases h

/-- A pull is not rejected exactly in a decode job with values left and room for one more (44 R212). -/
theorem pullReject_none {s : State} : pullReject s = none ↔
    (s.mode = .decLoad ∨ s.mode = .decRun) ∧ s.remaining ≠ 0 ∧ indexFull s = false := by
  unfold pullReject
  by_cases h1 : s.mode = .decLoad <;> by_cases h2 : s.mode = .decRun <;>
    by_cases h3 : s.remaining = 0 <;> by_cases h4 : indexFull s = true <;> simp_all

/-- A stop that answers a next state is a fault entry. -/
theorem stopAt_next {e : ReadStop} {s t : State} (h : stopAt e s = .next t) :
    ∃ c, e = .violation c ∧ t = enterFault c s := by
  cases e with
  | violation c => exact ⟨c, rfl, by simpa [stopAt] using h.symm⟩
  | absentByte a => simp [stopAt] at h
  | absentSlot k => simp [stopAt] at h

/-- A fetched record that answers a next state committed a value or entered `FAULT`. -/
theorem completeRecord_next {r : Record} {pos : Nat} {s t : State} (h : completeRecord r pos s = .next t) :
    (∃ v, recordValue r s = .ok v ∧ t = respondOk v (commitPull v r pos s)) ∨
      ∃ c, recordValue r s = .error (.violation c) ∧ t = enterFault c s := by
  unfold completeRecord at h
  split at h
  · rename_i e he
    obtain ⟨c, rfl, rfl⟩ := stopAt_next h
    exact .inr ⟨c, he, rfl⟩
  · rename_i v hv
    exact .inl ⟨v, hv, by simpa using h.symm⟩

theorem execRecord_steps {r : Record} {s t : State} (h : execRecord r s = .next t) : Steps r.toInstr s t := by
  unfold execRecord at h
  split at h
  · rename_i st hst
    cases h
    exact .rejected st (pullReject_isReject hst)
  · rename_i hg
    split at h
    · rename_i hp
      rcases completeRecord_next h with ⟨v, hv, rfl⟩ | ⟨c, -, rfl⟩
      · exact .executed r v hg hp hv
      · exact .recordFault r c hg
    · cases h

/-- The inversion lemma: an instruction that answers a next state did one of the things of `Steps`. -/
theorem exec_steps {i : Instr} {s t : State} (h : exec i s = .next t) : Steps i s t := by
  cases i with
  | nop => cases h; exact .nop
  | encStart => cases h; exact .encStart
  | encPush v =>
    simp only [exec, execEncPush] at h
    split at h
    · cases h; exact .rejected _ rfl
    · rename_i hm
      split at h
      · cases h; exact .rejected _ rfl
      · rename_i hf
        split at h
        · cases h
        · rename_i r hr
          cases h
          exact .encPush r (by simpa using hm) (by simpa using hf) hr
  | encFinish =>
    simp only [exec, execEncFinish] at h
    split at h
    · cases h; exact .rejected _ rfl
    · rename_i hm
      cases h
      exact .encFinish (by simpa using hm)
  | decStart n => cases h; exact .decStart
  | decFeed b =>
    simp only [exec, execDecFeed] at h
    split at h
    · cases h; exact .rejected _ rfl
    · rename_i hm
      split at h
      · cases h; exact .rejected _ rfl
      · rename_i hc
        cases h
        exact .decFeed (by simpa using hm) hc
  | decPull =>
    simp only [exec, execDecPull] at h
    split at h
    · rename_i st hst
      cases h; exact .rejected st (pullReject_isReject hst)
    · rename_i hg
      split at h
      · obtain ⟨c, -, rfl⟩ := stopAt_next h
        exact .pullFault c hg
      · rename_i r pos hr
        rcases completeRecord_next h with ⟨v, hv, rfl⟩ | ⟨c, -, rfl⟩
        · exact .pulled r pos v hg hr hv
        · exact .pullFault c hg
  | decEnd =>
    simp only [exec, execDecEnd] at h
    split at h
    · cases h; exact .rejected _ rfl
    · rename_i hm
      cases h
      refine .decEnd ?_
      by_cases h1 : s.mode = .decLoad
      · exact .inl h1
      · by_cases h2 : s.mode = .decRun
        · exact .inr h2
        · exact absurd ⟨h1, h2⟩ hm
  | readCsr n =>
    simp only [exec, execReadCsr] at h
    split at h
    · rename_i d hd
      cases h; exact .readCsr d hd
    · cases h; exact .rejected _ rfl
  | softReset => cases h; exact .softReset
  | reserved op => cases h; exact .rejected _ rfl
  | verbatim v => exact execRecord_steps (r := .verbatim v) h
  | exactMatch d => exact execRecord_steps (r := .exactMatch d) h
  | backRefPayload d b l p => exact execRecord_steps (r := .backRefPayload d b l p) h
  | prevSameBin x => exact execRecord_steps (r := .prevSameBin x) h
  | prevNewBin b x => exact execRecord_steps (r := .prevNewBin b x) h

end Sys2Proof.Machine
end

