-- ==== Sys2Proof/Laws/Table.lean ====
section
/-!
SUPPORT. The laws of table storage: a read after a write, and the canonical form.
-/

namespace Sys2Proof.Machine

variable {α : Type}

@[simp] theorem Table.read_nil (a : Nat) : Table.read ([] : Table α) a = none := rfl

/-- A write is seen at its address and nowhere else. -/
theorem Table.read_write (t : Table α) (a : Nat) (v : α) (b : Nat) :
    Table.read (Table.write t a v) b = if b = a then some v else Table.read t b := by
  induction t with
  | nil => simp [Table.write, Table.read]
  | cons p rest ih =>
    obtain ⟨k, w⟩ := p
    simp only [Table.write]
    split
    · simp [Table.read]
    · split
      · rename_i h; subst h
        simp only [Table.read]
        split <;> simp_all
      · simp only [Table.read, ih]
        by_cases hbk : b = k
        · have : ¬ b = a := by omega
          simp [hbk]
          intro h; omega
        · simp [hbk]

@[simp] theorem Table.read_write_same (t : Table α) (a : Nat) (v : α) :
    Table.read (Table.write t a v) a = some v := by simp [Table.read_write]

theorem Table.read_write_other (t : Table α) {a b : Nat} (v : α) (h : b ≠ a) :
    Table.read (Table.write t a v) b = Table.read t b := by simp [Table.read_write, h]

/-- The addresses of a written table are those it had and the one written. -/
theorem Table.mem_write {t : Table α} {a : Nat} {v : α} {p : Nat × α} (h : p ∈ Table.write t a v) :
    p = (a, v) ∨ p ∈ t := by
  induction t with
  | nil => simpa [Table.write] using h
  | cons q rest ih =>
    obtain ⟨k, w⟩ := q
    simp only [Table.write] at h
    split at h
    · simpa using h
    · split at h
      · rcases List.mem_cons.1 h with h | h
        · exact .inl h
        · exact .inr (List.mem_cons_of_mem _ h)
      · rcases List.mem_cons.1 h with h | h
        · exact .inr (by simp [h])
        · rcases ih h with h | h
          · exact .inl h
          · exact .inr (List.mem_cons_of_mem _ h)

/-- A write keeps the canonical form. -/
theorem Table.wf_write {t : Table α} (h : Table.wf t) (a : Nat) (v : α) : Table.wf (Table.write t a v) := by
  induction t with
  | nil => simp [Table.write, Table.wf]
  | cons q rest ih =>
    obtain ⟨k, w⟩ := q
    obtain ⟨hk, hrest⟩ := List.pairwise_cons.1 h
    simp only [Table.write]
    split
    · rename_i hak
      refine List.pairwise_cons.2 ⟨fun p hp => ?_, h⟩
      rcases List.mem_cons.1 hp with rfl | hp
      · exact hak
      · exact Nat.lt_trans hak (hk p hp)
    · split
      · rename_i hak; subst hak
        exact List.pairwise_cons.2 ⟨fun p hp => hk p hp, hrest⟩
      · refine List.pairwise_cons.2 ⟨fun p hp => ?_, ih hrest⟩
        rcases Table.mem_write hp with rfl | hp
        · show k < a; omega
        · exact hk p hp

/-- A write of byte storage keeps the canonical form. -/
theorem Memory.wf_write {m : Memory} (h : Memory.wf m) (a : Nat) (b : Byte) :
    Memory.wf (Table.write m a b) := Table.wf_write h a b

/-- Two canonical tables that read alike are the same table. -/
theorem Table.ext_read {t u : Table α} (ht : Table.wf t) (hu : Table.wf u)
    (h : ∀ a, Table.read t a = Table.read u a) : t = u := by
  induction t generalizing u with
  | nil =>
    cases u with
    | nil => rfl
    | cons q rest => simpa [Table.read] using h q.1
  | cons p rest ih =>
    cases u with
    | nil => simpa [Table.read] using h p.1
    | cons q rest' =>
      obtain ⟨k, v⟩ := p
      obtain ⟨k', v'⟩ := q
      obtain ⟨hk, hrest⟩ := List.pairwise_cons.1 ht
      obtain ⟨hk', hrest'⟩ := List.pairwise_cons.1 hu
      have absent : ∀ {t : Table α} {b a : Nat}, (∀ p ∈ t, b < p.1) → a ≤ b → Table.read t a = none := by
        intro t b a hall hab
        induction t with
        | nil => rfl
        | cons p rest ih =>
          have := hall p (by simp)
          simp only [Table.read]
          rw [if_neg (by omega)]
          exact ih fun p hp => hall p (by simp [hp])
      have hkk : k = k' := by
        rcases Nat.lt_trichotomy k k' with hlt | heq | hgt
        · have h1 := h k
          simp only [Table.read, if_true] at h1
          rw [if_neg (by omega), absent hk' (by show k ≤ k'; omega)] at h1
          cases h1
        · exact heq
        · have h1 := h k'
          simp only [Table.read, if_true] at h1
          rw [if_neg (by omega), absent hk (by show k' ≤ k; omega)] at h1
          cases h1
      subst hkk
      have hv : v = v' := by simpa [Table.read] using h k
      subst hv
      congr 1
      apply ih hrest hrest'
      intro a
      by_cases ha : a = k
      · subst ha
        rw [absent hk (Nat.le_refl a), absent hk' (Nat.le_refl a)]
      · simpa [Table.read, ha] using h a

end Sys2Proof.Machine
end

