-- ==== Sys2Proof/Laws/Decoder.lean ====
section
/-!
SUPPORT. The laws of the decoder (44_decoder.md): what an executed record does, said once.
-/

namespace Sys2Proof.Machine

theorem canPull_iff {s : State} : CanPull s ↔ pullReject s = none := by
  rw [pullReject_none]; unfold CanPull indexFull; simp

/-- A record instruction is the execution of its record. -/
theorem exec_toInstr (r : Record) (s : State) : exec r.toInstr s = execRecord r s := by cases r <;> rfl

theorem fits_inPlace {r : Record} {i : Nat} {pb : Option Bin} (h : r.fitsContext i pb = true) :
    inPlace r i = true := by
  cases r <;> simp [Record.fitsContext, inPlace] at h ⊢ <;> omega

/-- A record that has a value commits it and answers it. -/
theorem completeRecord_value {r : Record} {v : Value} {pos : Nat} {s : State} (h : recordValue r s = .ok v) :
    completeRecord r pos s = .next (respondOk v (commitPull v r pos s)) := by
  unfold completeRecord; rw [h]

/-- A violation enters `FAULT` from the state before the command. -/
theorem completeRecord_violation {r : Record} {c : FaultCode} {pos : Nat} {s : State}
    (h : recordValue r s = .error (.violation c)) : completeRecord r pos s = .next (enterFault c s) := by
  unfold completeRecord; rw [h]; rfl

/-- What a pulled value does (44 R212, R221). -/
theorem commitPull_pulled (v : Value) (r : Record) (n : Nat) (s : State) :
    Pulled v n s (respondOk v (commitPull v r (s.rdPos.toNat + n) s)) := by
  constructor <;> simp [Table.read_write]

/-- A record that can stand here is executed. -/
theorem exec_inPlace {s : State} {r : Record} (hc : CanPull s) (hp : inPlace r s.index = true) :
    exec r.toInstr s = completeRecord r (s.rdPos.toNat + recordLength s.pb r) s := by
  rw [exec_toInstr]; unfold execRecord
  rw [canPull_iff.1 hc]; dsimp only; rw [if_pos hp]

/-- A pull executes what it fetches. -/
theorem execDecPull_fetched {s : State} {r : Record} {pos : Nat} (hc : CanPull s)
    (h : fetchRecord s = .ok (r, pos)) : exec .decPull s = completeRecord r pos s := by
  simp only [exec, execDecPull, canPull_iff.1 hc, h]

/-- A pull whose fetch finds a violation faults. -/
theorem execDecPull_violation {s : State} {c : FaultCode} (hc : CanPull s)
    (h : fetchRecord s = .error (.violation c)) : exec .decPull s = .next (enterFault c s) := by
  simp only [exec, execDecPull, canPull_iff.1 hc, h]; rfl

/-! ## The values referred to -/

theorem referenced_ok {s : State} {dist : BitVec 7} {r : Value} (h : distanceOf dist ≤ s.index)
    (hr : Table.read s.ring (slotOf (s.index - distanceOf dist)) = some r) :
    referenced dist s = .ok r := by
  unfold referenced; simp only; rw [if_neg (by omega)]; simp [hr]

theorem referenced_bad {s : State} {dist : BitVec 7} (h : s.index < distanceOf dist) :
    referenced dist s = .error (.violation .badDistance) := by
  unfold referenced; simp only; rw [if_pos (by omega)]

theorem referenced_absent {s : State} {dist : BitVec 7} (h : distanceOf dist ≤ s.index)
    (hr : Table.read s.ring (slotOf (s.index - distanceOf dist)) = none) :
    referenced dist s = .error (.absentSlot (slotOf (s.index - distanceOf dist))) := by
  unfold referenced; simp only; rw [if_neg (by omega)]; simp [hr]

theorem predecessor_ok {s : State} {p : Value} (hr : Table.read s.ring (slotOf (s.index - 1)) = some p) :
    predecessor s = .ok p := by
  unfold predecessor; simp [hr]

/-- No command of the host is a record instruction: `step` executes records through DEC_PULL only. -/
theorem decodeCommand_not_record (w : CommandWord) (r : Record) : decodeCommand w ≠ r.toInstr := by
  intro h
  have : (decodeCommand w).toRecord? = none := by
    unfold decodeCommand; dsimp only; split <;> rfl
  rw [h] at this; cases r <;> cases this

end Sys2Proof.Machine
end

