-- ==== Sys2Proof/Laws/Selector.lean ====
section
/-!
SUPPORT. The laws of the back-reference selector (42_selector.md, 10 R38): what it remembers, and that a committed
value is remembered.
-/

namespace Sys2Proof.Machine

/-- Two indices within 128 of each other and on one slot are the same index. -/
theorem slotOf_inj {i j : Nat} (h : slotOf i = slotOf j) (h1 : i < j + 128) (h2 : j < i + 128) : i = j := by
  unfold slotOf at h; omega

theorem slotOf_lt (j : Nat) : slotOf j < 128 := Nat.mod_lt _ (by omega)

theorem hash_lt (v : Value) : hashOf v < 16384 := (v.extractLsb' 0 14).isLt

/-- A resident index's slot holds its value (20 R71). -/
theorem Remembers.read_slot {hist : List Value} {s : State} (h : Remembers hist s) {j : Nat} {v : Value}
    (hj : hist[j]? = some v) (hw : hist.length ≤ j + 128) :
    Table.read s.ring (slotOf j) = some v := (h.slot _ _).2 ⟨j, hj, rfl, hw⟩

/-- A lookup entry names an index of the job (10 R38 (c)). -/
theorem Remembers.entry_lt {hist : List Value} {s : State} (h : Remembers hist s) {k j : Nat}
    (he : Table.read s.lut k = some j) : j < hist.length := by
  obtain ⟨⟨v, hv, _⟩, _⟩ := (h.entry k j).1 he
  exact (List.getElem?_eq_some_iff.1 hv).1

/-- After job start and reset nothing is remembered (70 R291). -/
theorem Remembers.empty {s : State} (hi : s.index = 0) (hr : s.ring = []) (hl : s.lut = []) :
    Remembers [] s := by
  refine ⟨by simpa using hi, fun k v => ?_, fun k j => ?_⟩
  · simp [hr]
  · simp [hl]

/-- What is remembered depends on `INDEX`, the ring and the lookup table only. -/
theorem Remembers.congr {hist : List Value} {s t : State} (h : Remembers hist s) (hi : t.index = s.index)
    (hr : t.ring = s.ring) (hl : t.lut = s.lut) : Remembers hist t :=
  ⟨hi.trans h.counted, by rw [hr]; exact h.slot, by rw [hl]; exact h.entry⟩

/-- A committed value is remembered with the others (42 R165, 10 R38). -/
theorem Remembers.commit {hist : List Value} {s t : State} (h : Remembers hist s) (v : Value)
    (hi : t.index = s.index + 1) (hr : t.ring = Table.write s.ring (slotOf s.index) v)
    (hl : t.lut = Table.write s.lut (hashOf v) s.index) : Remembers (hist ++ [v]) t := by
  have hlen : s.index = hist.length := h.counted
  have hget : ∀ j w, (hist ++ [v])[j]? = some w ↔
      (hist[j]? = some w) ∨ (j = hist.length ∧ w = v) := by
    intro j w
    rcases Nat.lt_trichotomy j hist.length with hlt | heq | hgt
    · rw [List.getElem?_append_left hlt]
      constructor
      · exact .inl
      · rintro (h | ⟨h, _⟩)
        · exact h
        · omega
    · subst heq
      rw [List.getElem?_append_right (Nat.le_refl _)]
      simp [eq_comm]
    · rw [List.getElem?_append_right (by omega), List.getElem?_eq_none (by simp; omega),
        List.getElem?_eq_none (by omega)]
      simp; omega
  have hbound : ∀ {j w}, hist[j]? = some w → j < hist.length :=
    fun h => (List.getElem?_eq_some_iff.1 h).1
  refine ⟨by simp [hi, hlen], fun k w => ?_, fun k j => ?_⟩
  · rw [hr, Table.read_write, List.length_append, List.length_singleton]
    split
    · rename_i hk
      constructor
      · intro hw
        refine ⟨hist.length, (hget _ _).2 (.inr ⟨rfl, (Option.some.inj hw).symm⟩), ?_, by omega⟩
        rw [hk, hlen]
      · rintro ⟨j, hj, hs, hw⟩
        rcases (hget j w).1 hj with hj | ⟨_, rfl⟩
        · have := hbound hj
          have := slotOf_inj (hs.trans hk) (by omega) (by omega)
          omega
        · rfl
    · rename_i hk
      rw [h.slot]
      constructor
      · rintro ⟨j, hj, hs, hw⟩
        have hlt := hbound hj
        refine ⟨j, (hget _ _).2 (.inl hj), hs, ?_⟩
        rcases Nat.lt_or_eq_of_le hw with h' | h'
        · omega
        · exfalso; apply hk; rw [← hs, hlen]; unfold slotOf; omega
      · rintro ⟨j, hj, hs, hw⟩
        rcases (hget j w).1 hj with hj | ⟨rfl, _⟩
        · exact ⟨j, hj, hs, by omega⟩
        · exact absurd (by rw [← hs, hlen]) hk
  · rw [hl, Table.read_write]
    split
    · rename_i hk
      constructor
      · intro hj
        have hj' : s.index = j := Option.some.inj hj
        subst hj'
        refine ⟨⟨v, (hget _ _).2 (.inr ⟨hlen, rfl⟩), hk.symm⟩, fun j' w hj' _ => ?_⟩
        rcases (hget j' w).1 hj' with h' | ⟨h', _⟩
        · have := hbound h'; omega
        · omega
      · rintro ⟨⟨w, hw, hh⟩, hmax⟩
        have h1 := hmax hist.length v ((hget _ _).2 (.inr ⟨rfl, rfl⟩)) hk.symm
        rcases (hget j w).1 hw with h' | ⟨h', _⟩
        · have := hbound h'; omega
        · rw [hlen, h']
    · rename_i hk
      rw [h.entry]
      constructor
      · rintro ⟨⟨w, hw, hh⟩, hmax⟩
        refine ⟨⟨w, (hget _ _).2 (.inl hw), hh⟩, fun j' w' hj' hh' => ?_⟩
        rcases (hget j' w').1 hj' with h' | ⟨_, rfl⟩
        · exact hmax j' w' h' hh'
        · exact absurd hh'.symm hk
      · rintro ⟨⟨w, hw, hh⟩, hmax⟩
        rcases (hget j w).1 hw with h' | ⟨_, rfl⟩
        · exact ⟨⟨w, h', hh⟩, fun j' w' hj' hh' => hmax j' w' ((hget _ _).2 (.inl hj')) hh'⟩
        · exact absurd hh.symm hk

/-- The candidates read are those asked for, each the occupant of its slot (42 R162). -/
theorem candidates_ok {ring : Table Value} {i d n : Nat} {cs : List (Nat × Value)}
    (h : candidates ring i d n = .ok cs) {c : Nat × Value} (hc : c ∈ cs) :
    ∃ e, d ≤ e ∧ e < d + n ∧ c.1 = i - e ∧ Table.read ring (slotOf c.1) = some c.2 := by
  induction n generalizing d cs with
  | zero =>
    simp only [candidates, Except.ok.injEq] at h
    subst h; simp at hc
  | succ n ih =>
    rw [candidates] at h
    cases hr : Table.read ring (slotOf (i - d)) with
    | none => simp [ringAt, hr, bind, Except.bind] at h
    | some v =>
      cases hrest : candidates ring i (d + 1) n with
      | error e => simp [ringAt, hr, hrest, bind, Except.bind] at h
      | ok rest =>
        simp only [ringAt, hr, hrest, bind, Except.bind, pure, Except.pure, Except.ok.injEq] at h
        subst h
        rcases List.mem_cons.1 hc with rfl | hc
        · exact ⟨d, Nat.le_refl d, by omega, rfl, hr⟩
        · obtain ⟨e, he1, he2, he3⟩ := ih hrest hc
          exact ⟨e, by omega, by omega, he3⟩

/-- The candidates can be read when their slots are populated (42 R162). -/
theorem candidates_read {ring : Table Value} {i d n : Nat}
    (h : ∀ e, d ≤ e → e < d + n → (Table.read ring (slotOf (i - e))).isSome) :
    ∃ cs, candidates ring i d n = .ok cs := by
  induction n generalizing d with
  | zero => exact ⟨[], rfl⟩
  | succ n ih =>
    obtain ⟨v, hv⟩ := Option.isSome_iff_exists.1 (h d (Nat.le_refl d) (by omega))
    obtain ⟨rest, hrest⟩ := ih (d := d + 1) fun e h1 h2 => h e (by omega) (by omega)
    refine ⟨(i - d, v) :: rest, ?_⟩
    rw [candidates]
    simp [ringAt, hv, hrest, bind, Except.bind, pure, Except.pure]

/-- The nearest maximiser is one of the candidates. -/
theorem nearestBest_mem (v : Value) (first : Nat × Value) (rest : List (Nat × Value)) :
    nearestBest v first rest ∈ first :: rest := by
  unfold nearestBest
  induction rest generalizing first with
  | nil => simp
  | cons c rest ih =>
    simp only [List.foldl_cons]
    split
    · exact List.mem_cons_of_mem _ (ih c)
    · rcases List.mem_cons.1 (ih first) with h | h
      · rw [h]; exact List.mem_cons_self ..
      · exact List.mem_cons_of_mem _ (List.mem_cons_of_mem _ h)

/-- No candidate is better than the nearest maximiser. -/
theorem quality_le_nearestBest (v : Value) (first : Nat × Value) (rest : List (Nat × Value))
    {c : Nat × Value} (hc : c ∈ first :: rest) :
    quality v c ≤ quality v (nearestBest v first rest) := by
  unfold nearestBest
  induction rest generalizing first c with
  | nil => simp at hc; simp [hc]
  | cons d rest ih =>
    simp only [List.foldl_cons]
    split
    · rename_i hgt
      rcases List.mem_cons.1 hc with rfl | hc
      · exact Nat.le_trans (Nat.le_of_lt hgt) (ih d (List.mem_cons_self ..))
      · exact ih d hc
    · rename_i hle
      rcases List.mem_cons.1 hc with rfl | hc
      · exact ih c (List.mem_cons_self ..)
      · rcases List.mem_cons.1 hc with rfl | hc
        · exact Nat.le_trans (by omega) (ih first (List.mem_cons_self ..))
        · exact ih first (List.mem_cons_of_mem _ hc)

/-- A freely chosen maximiser is a candidate of the greatest quality (42 R163). -/
theorem anyBest_spec (v : Value) (pick : Nat) (first : Nat × Value) (rest : List (Nat × Value)) :
    anyBest v pick first rest ∈ first :: rest ∧
      quality v (anyBest v pick first rest) = quality v (nearestBest v first rest) := by
  unfold anyBest
  simp only
  set best := quality v (nearestBest v first rest) with hbest
  set ms := (first :: rest).filter fun c => quality v c == best with hms
  have hpos : 0 < ms.length := by
    apply List.length_pos_of_mem (a := nearestBest v first rest)
    rw [hms, List.mem_filter]
    exact ⟨nearestBest_mem v first rest, by simp [hbest]⟩
  have hmem : ms.getD (pick % ms.length) first ∈ ms := by
    rw [List.getD_eq_getElem?_getD, List.getElem?_eq_getElem (Nat.mod_lt _ hpos)]
    exact List.getElem_mem _
  obtain ⟨h1, h2⟩ := List.mem_filter.1 hmem
  exact ⟨h1, by simpa using h2⟩

end Sys2Proof.Machine
end

