-- ==== Sys2Proof/Laws/Writer.lean ====
section
/-!
SUPPORT. The laws of the bitstream writer (40 R120 to R123, R128): what a write appends, and what it leaves alone.
-/

namespace Sys2Proof.Machine

/-- One bit of a byte in which one bit was set. -/
theorem getLsbD_setBit (w : BitVec 8) {k i : Nat} (hk : k < 8) (hi : i < 8) (b : Bool) :
    (setBit w k b).getLsbD i = if i = k then b else w.getLsbD i := by
  have hone : ∀ j : Nat, (1 : BitVec 8).getLsbD j = decide (j = 0) := by
    intro j; cases j <;> simp [BitVec.getLsbD, Nat.testBit_succ]
  simp only [setBit, BitVec.getLsbD_or, BitVec.getLsbD_and, BitVec.getLsbD_not,
    BitVec.getLsbD_shiftLeft, hi, decide_true, Bool.true_and, hone]
  by_cases hik : i = k
  · subst hik; cases b <;> simp
  · by_cases hlt : i < k
    · cases b <;> simp [hik, hlt]
    · have : i - k ≠ 0 := by omega
      cases b <;> simp [hik, this]

/-- The bits of a byte, one by one (20 R55). -/
theorem byteBits_eq (w : Byte) :
    byteBits w = [w.getLsbD 7, w.getLsbD 6, w.getLsbD 5, w.getLsbD 4, w.getLsbD 3, w.getLsbD 2,
      w.getLsbD 1, w.getLsbD 0] := by
  simp [byteBits, fieldBits]

/-- The filled bits after one more is written. -/
theorem take_byteBits_setBit (w : Byte) {k : Nat} (hk : k < 8) (b : Bool) :
    (byteBits (setBit w (7 - k) b)).take (k + 1) = (byteBits w).take k ++ [b] := by
  simp only [byteBits_eq]
  interval_cases k <;>
    simp (disch := omega) only [getLsbD_setBit, List.take_succ_cons, List.take_zero, List.cons_append,
      List.nil_append, Nat.reduceSub, Nat.reduceEqDiff, reduceIte]

@[simp] theorem byteBits_length (w : Byte) : (byteBits w).length = 8 := by simp [byteBits]

/-- `put_bit` appends one bit to what is written (40 R120). -/
theorem bitsWritten_putBit (b : Bool) (s : State) :
    bitsWritten (putBit b s) = bitsWritten s ++ [b] := by
  have hlt : s.wfill.toNat < 8 := s.wfill.isLt
  unfold putBit
  simp only
  split
  · rename_i h
    have h7 : s.wfill.toNat = 7 := by rw [h]; rfl
    have ht := take_byteBits_setBit s.wpart hlt b
    rw [h7] at ht
    have hfull : (byteBits (setBit s.wpart (7 - 7) b)).take 8 = byteBits (setBit s.wpart (7 - 7) b) :=
      List.take_of_length_le (by simp)
    rw [hfull] at ht
    simp only [bitsWritten, appendByte_out, List.flatMap_append, List.flatMap_cons, List.flatMap_nil,
      h7, ht, List.append_nil, List.append_assoc]
    rw [show ((0 : BitVec 3).toNat) = 0 from rfl, List.take_zero, List.append_nil]
  · rename_i h
    have h7 : s.wfill.toNat ≠ 7 := fun h' => h (BitVec.eq_of_toNat_eq h')
    have hn : (s.wfill + 1).toNat = s.wfill.toNat + 1 := by
      rw [BitVec.toNat_add]; simp; omega
    simp only [bitsWritten, hn, take_byteBits_setBit s.wpart hlt b, List.append_assoc]

/-- `put_bits` appends the field's bits (40 R121). -/
theorem bitsWritten_putBits (x : Value) (n : Nat) (s : State) :
    bitsWritten (putBits x n s) = bitsWritten s ++ fieldBits n x := by
  induction n generalizing s with
  | zero => simp [putBits, fieldBits]
  | succ n ih => simp [putBits, fieldBits, ih, bitsWritten_putBit]

theorem SameButWriter.refl (s : State) : SameButWriter s s := by constructor <;> rfl

theorem SameButWriter.trans {s t u : State} (h : SameButWriter s t) (k : SameButWriter t u) :
    SameButWriter s u := by
  constructor
  · exact k.mode.trans h.mode
  · exact k.index.trans h.index
  · exact k.remaining.trans h.remaining
  · exact k.pb.trans h.pb
  · exact k.inMem.trans h.inMem
  · exact k.inLen.trans h.inLen
  · exact k.rdPos.trans h.rdPos
  · exact k.cause.trans h.cause
  · exact k.ring.trans h.ring
  · exact k.lut.trans h.lut
  · exact k.config.trans h.config
  · exact k.port.trans h.port
  · exact k.rsps.trans h.rsps
  · exact k.pick.trans h.pick

theorem putBit_same (b : Bool) (s : State) : SameButWriter s (putBit b s) := by
  unfold putBit; simp only; split <;> constructor <;> rfl

theorem putBit_out (b : Bool) (s : State) : s.out <+: (putBit b s).out := by
  unfold putBit; simp only; split
  · exact ⟨[setBit s.wpart (7 - s.wfill.toNat) b], rfl⟩
  · exact List.prefix_refl _

theorem ofNat_length_append (l : List Byte) (b : Byte) :
    BitVec.ofNat 64 l.length + 1 = BitVec.ofNat 64 (l ++ [b]).length := by
  rw [List.length_append, List.length_singleton, BitVec.ofNat_add]
  rfl

theorem putBit_ok (b : Bool) {s : State} (h : WriterOk s) : WriterOk (putBit b s) := by
  have hlt : s.wfill.toNat < 8 := s.wfill.isLt
  unfold putBit; simp only; split
  · refine ⟨fun k _ => by simp, ?_⟩
    show s.outLen + 1 = _
    rw [h.out_counted, ofNat_length_append]
    rfl
  · rename_i hne
    have h7 : s.wfill.toNat ≠ 7 := fun h' => hne (BitVec.eq_of_toNat_eq h')
    have hn : (s.wfill + 1).toNat = s.wfill.toNat + 1 := by
      rw [BitVec.toNat_add]; simp; omega
    refine ⟨fun k hk => ?_, h.out_counted⟩
    simp only [hn] at hk ⊢
    rw [getLsbD_setBit _ (by omega) (by omega), if_neg (by omega)]
    exact h.part_clear k (by omega)

theorem putBits_same (x : Value) (n : Nat) (s : State) : SameButWriter s (putBits x n s) := by
  induction n generalizing s with
  | zero => exact .refl s
  | succ n ih => exact (putBit_same _ s).trans (ih _)

theorem putBits_out (x : Value) (n : Nat) (s : State) : s.out <+: (putBits x n s).out := by
  induction n generalizing s with
  | zero => exact List.prefix_refl _
  | succ n ih => exact (putBit_out _ s).trans (ih _)

theorem putBits_ok (x : Value) (n : Nat) {s : State} (h : WriterOk s) : WriterOk (putBits x n s) := by
  induction n generalizing s with
  | zero => exact h
  | succ n ih => exact ih (putBit_ok _ h)

theorem finish_same (s : State) : SameButWriter s (finish s) := by
  unfold finish; split <;> constructor <;> rfl

theorem finish_out (s : State) : s.out <+: (finish s).out := by
  unfold finish; split
  · exact List.prefix_refl _
  · exact ⟨[s.wpart], rfl⟩

theorem finish_ok {s : State} (h : WriterOk s) : WriterOk (finish s) := by
  unfold finish; split
  · exact h
  · refine ⟨fun k _ => by simp, ?_⟩
    show s.outLen + 1 = _
    rw [h.out_counted, ofNat_length_append]
    rfl

@[simp] theorem finish_wfill (s : State) : (finish s).wfill = 0 := by
  unfold finish; split
  · assumption
  · rfl

/-- The unfilled part of a byte whose low bits are 0. -/
theorem drop_byteBits {w : Byte} {n : Nat} (hn : n ≤ 8) (h : ∀ k, k < 8 - n → w.getLsbD k = false) :
    (byteBits w).drop n = List.replicate (8 - n) false := by
  simp only [byteBits_eq]
  interval_cases n <;>
    simp (disch := omega) only [h, List.drop_succ_cons, List.drop_zero, List.drop_nil, Nat.reduceSub,
      List.replicate]

/-- `finish` pads with zero bits to the byte boundary (40 R123, 20 R59). -/
theorem bitsWritten_finish {s : State} (h : WriterOk s) :
    bitsWritten (finish s) =
      bitsWritten s ++ List.replicate ((8 - s.wfill.toNat) % 8) false := by
  have hlt : s.wfill.toNat < 8 := s.wfill.isLt
  unfold finish; split
  · rename_i h0
    simp [h0]
  · rename_i h0
    have hne : s.wfill.toNat ≠ 0 := fun h' => h0 (BitVec.eq_of_toNat_eq h')
    rw [Nat.mod_eq_of_lt (by omega), ← drop_byteBits (by omega) h.part_clear]
    simp [bitsWritten]

/-- The number of bits written (40 R128). -/
theorem bitsWritten_length (s : State) :
    (bitsWritten s).length = 8 * s.out.length + s.wfill.toNat := by
  have hlt : s.wfill.toNat < 8 := s.wfill.isLt
  have hflat : ∀ l : List Byte, (l.flatMap byteBits).length = 8 * l.length := by
    intro l
    induction l with
    | nil => rfl
    | cons b l ih => simp [List.flatMap_cons, ih]; omega
  simp [bitsWritten, hflat]
  omega

/-- The emission of a record appends the record's bits (43 R182 to R188 write 30 R82 to R86). -/
theorem bitsWritten_emit (r : Record) (s : State) :
    bitsWritten (emit r s) = bitsWritten s ++ encodeRecord s.pb r := by
  cases r <;> simp [emit, encodeRecord, putRawValue, bitsWritten_putBits, bitsWritten_putBit]

theorem emit_same (r : Record) (s : State) : SameButWriter s (emit r s) := by
  cases r <;> simp only [emit, putRawValue]
  · exact putBits_same _ _ _
  · exact ((putBit_same _ _).trans (putBits_same _ _ _)).trans (putBit_same _ _)
  · exact ((((putBit_same _ _).trans (putBits_same _ _ _)).trans (putBit_same _ _)).trans
      (putBits_same _ _ _)).trans ((putBits_same _ _ _).trans (putBits_same _ _ _))
  · exact ((putBit_same _ _).trans (putBit_same _ _)).trans (putBits_same _ _ _)
  · exact ((putBit_same _ _).trans (putBit_same _ _)).trans
      ((putBits_same _ _ _).trans (putBits_same _ _ _))

theorem emit_out (r : Record) (s : State) : s.out <+: (emit r s).out := by
  cases r <;> simp only [emit, putRawValue]
  · exact putBits_out _ _ _
  · exact ((putBit_out _ _).trans (putBits_out _ _ _)).trans (putBit_out _ _)
  · exact ((((putBit_out _ _).trans (putBits_out _ _ _)).trans (putBit_out _ _)).trans
      (putBits_out _ _ _)).trans ((putBits_out _ _ _).trans (putBits_out _ _ _))
  · exact ((putBit_out _ _).trans (putBit_out _ _)).trans (putBits_out _ _ _)
  · exact ((putBit_out _ _).trans (putBit_out _ _)).trans
      ((putBits_out _ _ _).trans (putBits_out _ _ _))

theorem emit_ok (r : Record) {s : State} (h : WriterOk s) : WriterOk (emit r s) := by
  cases r <;> simp only [emit, putRawValue]
  · exact putBits_ok _ _ h
  · exact putBit_ok _ (putBits_ok _ _ (putBit_ok _ h))
  · exact putBits_ok _ _ (putBits_ok _ _ (putBits_ok _ _ (putBit_ok _ (putBits_ok _ _ (putBit_ok _ h)))))
  · exact putBits_ok _ _ (putBit_ok _ (putBit_ok _ h))
  · exact putBits_ok _ _ (putBits_ok _ _ (putBit_ok _ (putBit_ok _ h)))

end Sys2Proof.Machine
end

