-- ==== Sys2Proof/Laws/Encoder.lean ====
section
/-!
SUPPORT. The laws of the encoder (43_encoder.md): which candidate the selector can answer, which record is chosen, and
what a push does, each said once.
-/

namespace Sys2Proof.Machine

theorem ringAt_ok {ring : Table Value} {k : Nat} {c : Value} :
    ringAt ring k = .ok c ↔ Table.read ring k = some c := by
  unfold ringAt; split <;> rename_i h <;> simp [h]

/-! ## The selector's answers (42 R161, R162) -/

/-- What `scan` answers is the occupant of a slot in the window. -/
theorem scan_ok {s : State} {v : Value} {i j : Nat} {c : Value} (h : scan s v i = .ok (j, c))
    (hi : 1 ≤ i) :
    ∃ d, 1 ≤ d ∧ d ≤ min i 128 ∧ j = i - d ∧ Table.read s.ring (slotOf j) = some c := by
  unfold scan at h
  obtain ⟨c0, h0, h⟩ := bind_ok.1 h
  obtain ⟨cs, hcs, h⟩ := bind_ok.1 h
  have mem : ∀ best ∈ (i - 1, c0) :: cs, ∃ d, 1 ≤ d ∧ d ≤ min i 128 ∧ best.1 = i - d ∧
      Table.read s.ring (slotOf best.1) = some best.2 := by
    intro best hb
    rcases List.mem_cons.1 hb with rfl | hb
    · exact ⟨1, by omega, by omega, rfl, ringAt_ok.1 h0⟩
    · obtain ⟨e, a, b, c, d⟩ := candidates_ok hcs hb
      exact ⟨e, by omega, by omega, c, d⟩
  split at h <;> simp only [pure, Except.pure, Except.ok.injEq] at h
  · have := mem _ (nearestBest_mem v (i - 1, c0) cs)
    rw [h] at this; exact this
  · have := mem _ (anyBest_spec v (Config.anyPick s.pick) (i - 1, c0) cs).1
    rw [h] at this; exact this

/-- What `select` answers comes from the lookup, or from a scan that a missing or stale entry led to. -/
theorem select_ok {s : State} {v : Value} {i j : Nat} {c : Value} (h : select s v i = .ok (j, c)) :
    (Table.read s.lut (hashOf v) = some j ∧ j < i ∧ i - j ≤ 128 ∧
      Table.read s.ring (slotOf j) = some c) ∨
    ((∀ k, Table.read s.lut (hashOf v) = some k → k < i ∧ 128 < i - k) ∧ scan s v i = .ok (j, c)) := by
  unfold select at h
  split at h
  · rename_i hn
    exact .inr ⟨(by intro k hk; rw [hn] at hk; cases hk), h⟩
  · rename_i k hk
    split at h
    · cases h
    · split at h
      · obtain ⟨c0, h0, h⟩ := bind_ok.1 h
        simp only [pure, Except.pure, Except.ok.injEq, Prod.mk.injEq] at h
        obtain ⟨rfl, rfl⟩ := h
        exact .inl ⟨hk, by omega, by omega, ringAt_ok.1 h0⟩
      · refine .inr ⟨?_, h⟩
        intro k' hk'
        rw [hk] at hk'; cases hk'
        exact ⟨by omega, by omega⟩

/-- The candidates read are exactly those asked for, in order. -/
theorem candidates_get {ring : Table Value} {i d n : Nat} {cs : List (Nat × Value)}
    (h : candidates ring i d n = .ok cs) :
    cs.length = n ∧ ∀ k, k < n → ∃ c, cs[k]? = some (i - (d + k), c) ∧
      Table.read ring (slotOf (i - (d + k))) = some c := by
  induction n generalizing d cs with
  | zero => simp only [candidates, Except.ok.injEq] at h; subst h; simp
  | succ n ih =>
    rw [candidates] at h
    obtain ⟨c, hc, h⟩ := bind_ok.1 h
    obtain ⟨rest, hrest, h⟩ := bind_ok.1 h
    cases h
    obtain ⟨hl, hg⟩ := ih hrest
    refine ⟨by simp [hl], fun k hk => ?_⟩
    cases k with
    | zero => exact ⟨c, by simp, ringAt_ok.1 hc⟩
    | succ k =>
      obtain ⟨c', h1, h2⟩ := hg k (by omega)
      rw [show d + 1 + k = d + (k + 1) by omega] at h1 h2
      exact ⟨c', h1, h2⟩

/-- Everything before the nearest maximiser is worse. -/
theorem nearestBest_first (v : Value) (first : Nat × Value) (rest : List (Nat × Value)) :
    ∃ k : Nat, (first :: rest)[k]? = some (nearestBest v first rest) ∧
      ∀ (j : Nat) c, j < k → (first :: rest)[j]? = some c →
        quality v c < quality v (nearestBest v first rest) := by
  unfold nearestBest
  induction rest generalizing first with
  | nil => exact ⟨0, by simp, by intro j c (h : j < 0); omega⟩
  | cons d rest ih =>
    simp only [List.foldl_cons]
    split
    · rename_i hgt
      obtain ⟨k, h1, h2⟩ := ih d
      refine ⟨k + 1, by simpa using h1, ?_⟩
      intro j c hj hc
      cases j with
      | zero =>
        simp at hc; subst hc
        exact Nat.lt_of_lt_of_le hgt (quality_le_nearestBest v d rest (List.mem_cons_self ..))
      | succ j => exact h2 j c (by omega) (by simpa using hc)
    · rename_i hle
      obtain ⟨k, h1, h2⟩ := ih first
      cases k with
      | zero => exact ⟨0, by simpa using h1, by intro j c (h : j < 0); omega⟩
      | succ k =>
        refine ⟨k + 2, by simpa using h1, ?_⟩
        intro j c hj hc
        have h0 := h2 0 first (by omega) (by simp)
        match j with
        | 0 => simp at hc; subst hc; exact h0
        | 1 => simp at hc; subst hc; omega
        | j + 2 => exact h2 (j + 1) c (by omega) (by simpa using hc)

/-! ## What the selector remembers (10 R38) -/

/-- Every slot of the window is populated by the value of its index. -/
theorem Remembers.window {hist : List Value} {s : State} (h : Remembers hist s) {e : Nat} (h1 : 1 ≤ e)
    (h2 : e ≤ min s.index 128) :
    ∃ c, hist[s.index - e]? = some c ∧ Table.read s.ring (slotOf (s.index - e)) = some c := by
  have hc := h.counted
  have : s.index - e < hist.length := by omega
  exact ⟨hist[s.index - e], List.getElem?_eq_getElem this,
    h.read_slot (List.getElem?_eq_getElem this) (by omega)⟩

/-- The occupant of a slot of the window is the value of that index. -/
theorem Remembers.occupant {hist : List Value} {s : State} (h : Remembers hist s) {j : Nat} {c : Value}
    (h1 : j < s.index) (h2 : s.index ≤ j + 128) (hr : Table.read s.ring (slotOf j) = some c) :
    hist[j]? = some c := by
  have hc := h.counted
  have := h.read_slot (List.getElem?_eq_getElem (by omega : j < hist.length)) (by omega)
  rw [hr] at this
  rw [List.getElem?_eq_getElem (by omega), ← this]

/-- Values of different hashes differ in one of their 14 low bits (42 R160, R167). -/
theorem trailing_of_hash_ne {v c : Value} (h : hashOf c ≠ hashOf v) : countTrailing (v ^^^ c) ≤ 13 := by
  by_contra hc
  apply h
  unfold hashOf
  congr 1
  apply BitVec.eq_of_getLsbD_eq; intro i hi
  have := getLsbD_of_lt_countTrailing (x := v ^^^ c) (k := i) (by omega)
  simp only [BitVec.getLsbD_xor] at this
  simp only [BitVec.getLsbD_extractLsb', Nat.zero_add]
  revert this; cases v.getLsbD i <;> cases c.getLsbD i <;> simp

/-- Values of one hash agree in their 14 low bits (42 R160, R167). -/
theorem trailing_of_hash_eq {v c : Value} (h : hashOf c = hashOf v) : 14 ≤ countTrailing (v ^^^ c) := by
  by_contra hc
  have hne : v ^^^ c ≠ 0 := fun h0 => by rw [(countTrailing_eq_iff _).2 h0] at hc; omega
  have := getLsbD_countTrailing hne
  have h' : v.extractLsb' 0 14 = c.extractLsb' 0 14 := BitVec.eq_of_toNat_eq h.symm
  have h2 := congrArg (fun z => z.getLsbD (countTrailing (v ^^^ c))) h'
  simp only [BitVec.getLsbD_extractLsb', Nat.zero_add, show countTrailing (v ^^^ c) < 14 by omega,
    decide_true, Bool.true_and] at h2
  rw [BitVec.getLsbD_xor, h2] at this; simp at this

/-! ## The chosen record (43 R183 to R188) -/

theorem chooseRecord_backRef {s : State} {v : Value} {j : Nat} {c : Value} (hi : 1 ≤ s.index)
    (hs : select s v s.index = .ok (j, c))
    (ht : s.config.brThreshold.toNat < countTrailing (v ^^^ c)) :
    chooseRecord s v = .ok (backRefRecord (s.index - j) (v ^^^ c)) := by
  unfold chooseRecord
  rw [if_neg (by omega), hs]
  simp [bind, Except.bind, ht, pure, Except.pure]

theorem chooseRecord_prev {s : State} {v : Value} {j : Nat} {c p : Value} (hi : 1 ≤ s.index)
    (hs : select s v s.index = .ok (j, c))
    (ht : countTrailing (v ^^^ c) ≤ s.config.brThreshold.toNat)
    (hp : Table.read s.ring (slotOf (s.index - 1)) = some p) :
    chooseRecord s v = .ok (prevRecord s.pb (v ^^^ p)) := by
  unfold chooseRecord
  rw [if_neg (by omega), hs]
  simp [bind, Except.bind, show ¬ s.config.brThreshold.toNat < countTrailing (v ^^^ c) by omega, pure,
    Except.pure, ringAt, hp]

/-- Which records can be chosen, and why. -/
theorem chooseRecord_ok {s : State} {v : Value} {r : Record} (h : chooseRecord s v = .ok r) :
    (s.index = 0 ∧ r = .verbatim v) ∨
    (1 ≤ s.index ∧ ∃ j c, select s v s.index = .ok (j, c) ∧
      ((s.config.brThreshold.toNat < countTrailing (v ^^^ c) ∧
          r = backRefRecord (s.index - j) (v ^^^ c)) ∨
        (countTrailing (v ^^^ c) ≤ s.config.brThreshold.toNat ∧
          ∃ p, Table.read s.ring (slotOf (s.index - 1)) = some p ∧ r = prevRecord s.pb (v ^^^ p)))) := by
  unfold chooseRecord at h
  split at h
  · rename_i h0; cases h; exact .inl ⟨h0, rfl⟩
  · rename_i h0
    obtain ⟨⟨j, c⟩, hs, h⟩ := bind_ok.1 h
    refine .inr ⟨by omega, j, c, hs, ?_⟩
    simp only at h
    split at h
    · rename_i ht; cases h; exact .inl ⟨ht, rfl⟩
    · rename_i ht
      obtain ⟨p, hp, h⟩ := bind_ok.1 h
      cases h
      exact .inr ⟨by omega, p, ringAt_ok.1 hp, rfl⟩

/-- The distance field of the encoder as a number (30 R88). -/
theorem fieldBits_distance (d : Nat) :
    fieldBits 7 ((distanceField d).zeroExtend 64) = fieldBits 7 (BitVec.ofNat 64 (d % 128)) := by
  congr 1
  apply BitVec.eq_of_toNat_eq
  simp [distanceField]

/-- The payload of a back-reference is odd (43 R193). -/
theorem shift_odd {x : Value} (h : x ≠ 0) : (x >>> countTrailing x).getLsbD 0 = true := by
  rw [BitVec.getLsbD_ushiftRight]; simpa using getLsbD_countTrailing h

/-- The payload of a back-reference fits its length (43 R185). -/
theorem shift_fits (x : Value) {b t : Nat} (h : x.toNat < 2 ^ (64 - b)) (ht : t ≤ 64 - b) :
    (x >>> t).toNat < 2 ^ (64 - b - t) := by
  rw [BitVec.toNat_ushiftRight, Nat.shiftRight_eq_div_pow, Nat.div_lt_iff_lt_mul (Nat.two_pow_pos t),
    ← Nat.pow_add, Nat.sub_add_cancel ht]
  exact h

/-- The meaningful length of a back-reference, which fits its field (43 R185). -/
theorem backRef_len {x : Value} (hx : x ≠ 0) (ht : 0 < countTrailing x) :
    (BitVec.ofNat 6 (64 - binValue (binOf (countLeading x)) - countTrailing x)).toNat =
      64 - binValue (binOf (countLeading x)) - countTrailing x ∧
    1 ≤ 64 - binValue (binOf (countLeading x)) - countTrailing x := by
  have hsum := countLeading_add_countTrailing hx
  have hb := binOf_le (countLeading x)
  refine ⟨?_, by omega⟩
  rw [BitVec.toNat_ofNat, Nat.mod_eq_of_lt]
  omega

/-! ## A push (43 R181, R189, R190) -/

/-- What a push writes and commits, whatever record it chose. -/
theorem commitPush_pushed (v : Value) (r : Record) (s : State) :
    Pushed v s (respondOk (commitPush v r (emit r s)).outLen (commitPush v r (emit r s))) := by
  have e := emit_same r s
  constructor
  all_goals
    simp [e.index, e.mode, e.remaining, e.inMem, e.inLen, e.rdPos, e.cause, e.config, e.port, e.rsps, e.ring,
      e.lut, Table.read_write]
  · exact emit_out r s
  · exact fun h => ⟨(emit_ok r h).part_clear, (emit_ok r h).out_counted⟩

/-- A push in an encode job with room answers what its chosen record leaves. -/
theorem execEncPush_chosen {s : State} {v : Value} {r : Record} (hm : s.mode = .enc)
    (hf : s.index ≠ 2 ^ s.config.idxW - 1) (hr : chooseRecord s v = .ok r) :
    exec (.encPush v) s =
      .next (respondOk (commitPush v r (emit r s)).outLen (commitPush v r (emit r s))) := by
  have hfull : indexFull s = false := by simpa [indexFull] using hf
  simp only [exec, execEncPush, hm, ne_eq, not_true, if_false, hfull, Bool.false_eq_true, hr]

theorem commitPush_bits (v : Value) (r : Record) (s : State) (d : BitVec 64) :
    bitsWritten (respondOk d (commitPush v r (emit r s))) = bitsWritten s ++ encodeRecord s.pb r := by
  rw [← bitsWritten_emit]; rfl

theorem commitPush_remembers {hist : List Value} {s : State} {v : Value} {r : Record} (d : BitVec 64)
    (h : Remembers hist s) : Remembers (hist ++ [v]) (respondOk d (commitPush v r (emit r s))) := by
  have x := emit_same r s
  refine h.commit v ?_ ?_ ?_ <;> simp [x.index, x.ring, x.lut]

end Sys2Proof.Machine
end

