-- ==== Sys2Proof/Laws/Invariant.lean ====
section
/-!
SUPPORT. The laws of the storage's canonical form and of the invariant: memory operations keep the form, a cleared job
meets the invariant, and the interface streams do not matter to it.
-/

namespace Sys2Proof.Machine

/-- Reset's byte storage is canonical. -/
theorem reset_inMem_wf : Memory.wf State.reset.inMem := List.Pairwise.nil

/-- Job start's byte storage is canonical. -/
theorem clearJob_inMem_wf (s : State) : Memory.wf (clearJob s).inMem := List.Pairwise.nil

/-- A fed byte keeps the canonical form (44 R211). -/
theorem feedByte_inMem_wf (b : Byte) {s : State} (h : Memory.wf s.inMem) : Memory.wf (feedByte b s).inMem :=
  Memory.wf_write h _ _

/-- Loaded bytes are in canonical form. -/
theorem loadBytes_wf (bytes : List Byte) (a : Nat) :
    Memory.wf (loadBytes a bytes) ∧ ∀ p ∈ loadBytes a bytes, a ≤ p.1 := by
  induction bytes generalizing a with
  | nil => exact ⟨List.Pairwise.nil, by simp [loadBytes]⟩
  | cons b rest ih =>
    obtain ⟨h1, h2⟩ := ih (a + 1)
    refine ⟨List.pairwise_cons.2 ⟨fun p hp => h2 p hp, h1⟩, ?_⟩
    intro p hp
    rcases List.mem_cons.1 hp with rfl | hp
    · exact Nat.le_refl a
    · exact Nat.le_trans (Nat.le_succ a) (h2 p hp)

/-- Every instruction keeps the byte storage in canonical form. -/
theorem exec_inMem_wf {i : Instr} {s t : State} (h : Memory.wf s.inMem) (he : exec i s = .next t) :
    Memory.wf t.inMem := by
  have hput : ∀ (b : Bool) (u : State), (putBit b u).inMem = u.inMem := by
    intro b u; unfold putBit; dsimp only; split <;> rfl
  have hputs : ∀ (x : Value) (n : Nat) (u : State), (putBits x n u).inMem = u.inMem := by
    intro x n
    induction n with
    | zero => intro u; rfl
    | succ n ih => intro u; exact (ih _).trans (hput _ u)
  cases exec_steps he with
  | encPush r h1 h2 h3 =>
    have : (emit r s).inMem = s.inMem := by cases r <;> simp [emit, putRawValue, hput, hputs]
    simpa [this] using h
  | encFinish h1 =>
    have : (finish s).inMem = s.inMem := by unfold finish; split <;> rfl
    simpa [this] using h
  | softReset => exact List.Pairwise.nil
  | encStart => exact List.Pairwise.nil
  | decStart => exact List.Pairwise.nil
  | decFeed h1 h2 => exact feedByte_inMem_wf _ h
  | _ => exact h

/-- A state whose job state is clear meets the invariant (10 R39, R40). -/
theorem inv_of_cleared {s : State} (hs : s.config.wf) (h1 : s.index = 0) (h2 : s.ring = []) (h3 : s.lut = [])
    (h4 : s.inMem = []) (h5 : s.inLen = 0) (h6 : s.rdPos = 0) (h7 : s.wpart = 0) (h8 : s.outLen = 0)
    (h9 : s.out = []) (h10 : s.cause = none) (h11 : s.mode ≠ .fault)
    (h12 : s.mode = .enc → s.remaining = 0) (h13 : s.mode ≠ .decRun) : s.Inv := by
  constructor
  · exact hs
  · rw [h2]; exact List.Pairwise.nil
  · rw [h3]; exact List.Pairwise.nil
  · rw [h4]; exact List.Pairwise.nil
  · rw [h1]; exact Nat.two_pow_pos _
  · exact ⟨[], .empty h1 h2 h3⟩
  · intro a; simp [h4, h5]
  · rw [h5]; exact Nat.zero_le _
  · rw [h6]; simp
  · intro k _; simp [h7]
  · simp [h8, h9]
  · simp [h10, h11]
  · exact h12
  · intro _; exact h1
  · intro h; exact absurd h h13

/-- The interface streams do not matter to the invariant. -/
theorem State.Inv.streams {s : State} (h : s.Inv) (p : List HostEvent) (r : List ResponseWord) :
    State.Inv { s with port := p, rsps := r } := by
  obtain ⟨hist, hr⟩ := h.remembers
  exact ⟨h.config_wf, h.ring_wf, h.lut_wf, h.in_wf, h.index_bound, ⟨hist, hr.congr rfl rfl rfl⟩, h.in_loaded,
    h.in_cap, h.rd_bound, h.part_clear, h.out_counted, h.cause_mode, h.enc_remaining, h.load_index,
    h.run_index⟩

end Sys2Proof.Machine
end

