-- ==== Sys2Proof/Laws/Jobs.lean ====
section
/-!
SUPPORT. The laws of command sequences: a sequence is cut at any place, and pulls that go on are peeled off a decode.
-/

namespace Sys2Proof.Machine

@[simp] theorem andThen_next (t : State) (go : State → Result) : andThen (.next t) go = go t := rfl

/-- A sequence answers a next state exactly when each of its parts does. -/
theorem andThen_eq_next {r : Result} {go : State → Result} {u : State} :
    andThen r go = .next u ↔ ∃ t, r = .next t ∧ go t = .next u := by
  cases r <;> simp [andThen]

@[simp] theorem runCommands_nil (s : State) : runCommands [] s = .next s := rfl

@[simp] theorem runCommands_cons (i : Instr) (is : List Instr) (s : State) :
    runCommands (i :: is) s = andThen (exec i s) (runCommands is) := rfl

/-- Commands before a cut, then the commands after it. -/
theorem runCommands_append {xs : List Instr} {s t : State} (ys : List Instr)
    (h : runCommands xs s = .next t) : runCommands (xs ++ ys) s = runCommands ys t := by
  induction xs generalizing s with
  | nil => cases h; rfl
  | cons i xs ih =>
    obtain ⟨m, hm, hrest⟩ := andThen_eq_next.1 h
    simp [hm, ih hrest]

@[simp] theorem runPulls_zero (s : State) : runPulls 0 s = exec .decEnd s := rfl

/-- A pull that does not end in `FAULT` is followed by the rest of the decode (45 R247). -/
theorem runPulls_succ_of_pulled {s t : State} (n : Nat) (h : exec .decPull s = .next t)
    (ht : t.mode ≠ .fault) : runPulls (n + 1) s = runPulls n t := by
  simp [runPulls, h, ht]

/-- A pull that ends in `FAULT` ends the decode (45 R247). -/
theorem runPulls_succ_of_faulted {s t : State} (n : Nat) (h : exec .decPull s = .next t)
    (ht : t.mode = .fault) : runPulls (n + 1) s = .next t := by
  simp [runPulls, h, ht]

end Sys2Proof.Machine
end

