-- ==== Sys2Proof/Laws/PerInstr.lean ====
section
/-!
SUPPORT. The statement made per instruction: an instruction's encoding has the length the spec gives it.
-/

namespace Sys2Proof.Laws.EncodedLength

open Sys2Proof Sys2Proof.Machine

/-- A command is 68 bits (30 R97), a record as long as the decode tree says (30 R87). -/
def Statement (i : Instr) : Prop :=
  ∀ pb, (encode pb i).length =
    match i.toRecord? with
    | some r => recordLength pb r
    | none => 68

theorem record (r : Record) : Statement r.toInstr := by
  intro pb
  have h := encodeRecord_length pb r
  cases r <;> exact h

theorem command {i : Instr} {w : CommandWord} (hr : i.toRecord? = none) (hw : encodeCommand i = some w) :
    Statement i := by
  intro pb
  rw [encode, hr, hw]
  simp [commandBits]

theorem nop : Statement .nop := command rfl rfl
theorem encStart : Statement .encStart := command rfl rfl
theorem encPush (v : Value) : Statement (.encPush v) := command rfl rfl
theorem encFinish : Statement .encFinish := command rfl rfl
theorem decStart (n : BitVec 64) : Statement (.decStart n) := command rfl rfl
theorem decFeed (b : Byte) : Statement (.decFeed b) := command rfl rfl
theorem decPull : Statement .decPull := command rfl rfl
theorem decEnd : Statement .decEnd := command rfl rfl
theorem readCsr (n : BitVec 64) : Statement (.readCsr n) := command rfl rfl
theorem softReset : Statement .softReset := command rfl rfl
theorem reserved (op : BitVec 4) : Statement (.reserved op) := command rfl rfl
theorem verbatim (v : Value) : Statement (.verbatim v) := record (.verbatim v)
theorem exactMatch (d : BitVec 7) : Statement (.exactMatch d) := record (.exactMatch d)
theorem backRefPayload (d : BitVec 7) (b : Bin) (l : BitVec 6) (p : Value) :
    Statement (.backRefPayload d b l p) := record (.backRefPayload d b l p)
theorem prevSameBin (x : Value) : Statement (.prevSameBin x) := record (.prevSameBin x)
theorem prevNewBin (b : Bin) (x : Value) : Statement (.prevNewBin b x) := record (.prevNewBin b x)

end Sys2Proof.Laws.EncodedLength
end

