-- ==== Sys2Proof/Tests/Slice0.lean ====
section
/-!
SUPPORT. The model's own tests: the well-formedness smoke tests, decode tests from words written out from the spec's
encodings, the spec's vectors (95_test_vectors.md) one step at a time, and a witness for the hypotheses of every
obligation that has any.
-/

namespace Sys2Proof.Tests

-- Many small `decide` proofs at once exhaust the threads of a small machine; elaborate them one after another.
set_option Elab.async false

open Sys2Proof Sys2Proof.Machine

/-! ## Small states -/

/-- The pattern of 1.1 (95, `V1.1`). -/
def v11 : Value := 0x3FF199999999999A

/-- The pattern of 2.2 (95 L1.2). -/
def v22 : Value := 0x400199999999999A

/-- A state in mode `m` that has seen these values. -/
def seen (m : Mode) (values : List Value) : State :=
  { values.foldl (fun s v => { update v s.index s with index := s.index + 1 }) State.reset with mode := m }

/-- A decode job that has seen these values, at bit 0 of these bytes, with three values left. -/
def pulling (values : List Value) (bytes : List Byte) : State :=
  { seen (if values = [] then .decLoad else .decRun) values with
    remaining := 3, inMem := loadBytes 0 bytes, inLen := bytes.length }

/-- The state an instruction answers, if it does. -/
def after (i : Instr) (s : State) : Option State :=
  match exec i s with
  | .next t => some t
  | .fault _ => none
  | .refused _ => none

/-- The responses after an instruction. -/
def answers (i : Instr) (s : State) : Option (List ResponseWord) := (after i s).map State.rsps

/-- A bit string in stream order, zeros after it. -/
def stream {n : Nat} (x : BitVec n) : BitSource := fun p => .ok (x.getMsbD p)

/-! ## Well-formedness: each check refuses an ill-formed term -/

theorem test_wf_reserved : Instr.wf (.reserved 9) = false ∧ Instr.wf (.reserved 10) = true := by decide
theorem test_wf_backRef_payload :
    Instr.wf (.backRefPayload 1 .b0 3 8) = false ∧ Instr.wf (.backRefPayload 1 .b0 3 7) = true := by decide
theorem test_wf_prevNewBin_payload :
    Instr.wf (.prevNewBin .b24 (1 <<< 40)) = false ∧ Instr.wf (.prevNewBin .b24 ((1 <<< 40) - 1)) = true := by
  decide
theorem test_wf_record :
    Record.wf (.backRefPayload 1 .b24 1 2) = false ∧ Record.wf (.prevNewBin .b8 (1 <<< 56)) = false := by decide
theorem test_context_verbatim :
    Record.fitsContext 1 none (.verbatim 0) = false ∧ Record.fitsContext 0 none (.verbatim 0) = true := by decide
theorem test_context_distance :
    Record.fitsContext 127 none (.exactMatch 0) = false ∧ Record.fitsContext 128 none (.exactMatch 0) = true := by
  decide
theorem test_context_length :
    Record.fitsContext 1 none (.backRefPayload 1 .b24 41 0) = false ∧
      Record.fitsContext 1 none (.backRefPayload 1 .b24 40 0) = true ∧
      Record.fitsContext 1 none (.backRefPayload 2 .b24 40 0) = false := by decide
theorem test_context_prevSameBin :
    Record.fitsContext 1 none (.prevSameBin 0) = false ∧
      Record.fitsContext 1 (some .b24) (.prevSameBin (1 <<< 40)) = false ∧
      Record.fitsContext 1 (some .b24) (.prevSameBin 1) = true := by decide
theorem test_context_first :
    Record.fitsContext 0 none (.exactMatch 1) = false ∧ Record.fitsContext 0 none (.prevNewBin .b0 0) = false := by
  decide

/-! ## Decoding: words written out from the encodings of 30 R82 to R99 -/

theorem test_decode_nop : decodeCommand (0b0000#4 ++ 0xFFFFFFFFFFFFFFFF#64) = .nop := by decide
theorem test_decode_encStart : decodeCommand 0x10000000000000000#68 = .encStart := by decide
theorem test_decode_encPush : decodeCommand 0x23FF199999999999A#68 = .encPush v11 := by decide
theorem test_decode_encFinish : decodeCommand 0x30000000000000000#68 = .encFinish := by decide
theorem test_decode_decStart : decodeCommand 0x40000000000000003#68 = .decStart 3 := by decide
theorem test_decode_decFeed : decodeCommand 0x5AAAAAAAAAAAAAAFE#68 = .decFeed 0xFE := by decide
theorem test_decode_decPull : decodeCommand 0x60000000000000000#68 = .decPull := by decide
theorem test_decode_decEnd : decodeCommand 0x70000000000000000#68 = .decEnd := by decide
theorem test_decode_readCsr : decodeCommand 0x80000000000000006#68 = .readCsr 6 := by decide
theorem test_decode_softReset : decodeCommand 0x90000000000000000#68 = .softReset := by decide
theorem test_decode_reserved :
    decodeCommand 0xA0000000000000000#68 = .reserved 0xA ∧ decodeCommand 0xF0000000000000000#68 = .reserved 0xF := by
  decide

theorem test_decode_verbatim :
    decodeRecord (stream 0x3FF199999999999A#64) 0 none 0 = .ok (.verbatim v11, 64) := by decide +kernel
/-- 95 S4 and E6. -/
theorem test_decode_exactMatch :
    decodeRecord (stream 0b000000000#9) 128 none 0 = .ok (.exactMatch 0, 9) ∧
      decodeRecord (stream 0b000000010#9) 1 none 0 = .ok (.exactMatch 1, 9) := by decide +kernel
/-- 95 L1.2 index 2. -/
theorem test_decode_backRefPayload :
    decodeRecord (stream 0b000000011000001100011111111111#30) 2 none 0 =
      .ok (.backRefPayload 1 .b0 12 0x7FF, 30) := by decide +kernel
/-- 95 E5, index 2. -/
theorem test_decode_prevSameBin :
    decodeRecord (stream (0b10#2 ++ 0x0000000002#40)) 2 (some .b24) 0 = .ok (.prevSameBin 2, 42) := by
  decide +kernel
/-- 95 E2. -/
theorem test_decode_prevNewBin :
    decodeRecord (stream (0b11#2 ++ 0b111#3 ++ 0x0000004000#40)) 1 none 0 =
      .ok (.prevNewBin .b24 0x4000, 45) := by decide +kernel

/-- Encoding writes the same words (95 P1, E3). -/
theorem test_encode_words :
    encode none (.encPush v11) = fieldBits 4 2 ++ fieldBits 64 v11 ∧
      encode none (.backRefPayload 1 .b0 1 1) = fieldBits 19 0b0000000110000000011 := by decide +kernel

/-- The rows of the opcode table, at their `match` values. -/
theorem test_table_rows :
    decodeTableWord 72 0x23FF199999999999A = some (.encPush v11) ∧
      decodeTableWord 72 0xC0000000000000000 = some (.reserved 0xC) ∧
      decodeTableWord 64 0 = some (.verbatim 0) ∧
      decodeTableWord 16 0x000 = some (.exactMatch 0) ∧
      decodeTableWord 24 0x001 = some (.backRefPayload 0 .b0 0 0) ∧
      decodeTableWord 16 0x100 = some (.prevSameBin 0) ∧
      decodeTableWord 16 0x180 = some (.prevNewBin .b0 0) := by decide +kernel

/-- A placed record is the one the next step's pull fetches. -/
theorem test_placed_record :
    (match step (State.reset.withFetchWord 16 0x180) with
      | .next t => (t.index, t.pb, t.rdPos)
      | _ => (0, none, 0)) = (129, some .b0, 69) ∧
    (match step (State.reset.withFetchWord 64 0x3FF199999999999A) with
      | .next t => t.rsps
      | _ => []) = [0x03FF199999999999A] := by decide +kernel

/-! ## One step of each instruction (95 L2, L3) -/

/-- 95 K11. -/
theorem test_nop : answers .nop (seen .idle [v11]) = some [0#68] := by decide +kernel
/-- 95 K9. -/
theorem test_encStart :
    (after .encStart { seen .fault [v11] with cause := some .badLength }).map
      (fun t => (t.mode, t.cause, t.index, t.rsps)) = some (.enc, none, 0, [0#68]) := by decide +kernel
/-- 95 P1, command 7: the response, `WPART`, `WFILL` and `PB` of command 8. -/
theorem test_encPush :
    (after (.encPush v22) { seen .enc [v11, v11] with wfill := 1, outLen := 9 }).map
      (fun t => (t.rsps, t.wpart, t.wfill, t.pb)) = some ([0x0000000000000000C#68], 0xFE, 7, some .b0) := by
  decide +kernel
/-- 95 E4, index 2: the hit is taken though an exact match is further back. -/
theorem test_encPush_hit :
    (chooseRecord (seen .enc [0, 0x4000]) 0).toOption = some (.backRefPayload 1 .b24 26 1) := by decide +kernel
/-- 95 P1, command 9. -/
theorem test_encFinish :
    (after .encFinish { seen .enc [v11] with wpart := 0xFE, wfill := 7, outLen := 12 }).map
      (fun t => (t.rsps, t.out, t.wfill, t.mode)) = some ([0x0000000000000000D#68], [0xFE], 0, .idle) := by
  decide +kernel
/-- 95 P3, commands 16 and 17. -/
theorem test_decStart :
    (after (.decStart 0) { seen .fault [v11] with cause := some .readOob }).map (fun t => (statusWord t, t.rsps)) =
      some (2, [0#68]) := by decide +kernel
/-- 95 K4 and K6. -/
theorem test_decFeed :
    answers (.decFeed 0) (pulling [v11] []) = some [0x20000000000000000#68] ∧
      answers (.decFeed 0) { pulling [] [1] with config := { Config.standard with inCap := 1 } } =
        some [0x40000000000000000#68] := by decide +kernel
/-- 95 DV10. -/
theorem test_decPull :
    (after .decPull (pulling [v11] [0xF8, 0, 0, 0, 0, 8])).map (fun t => (t.rsps, t.rdPos, statusWord t)) =
      some ([0x03FF199999999999B#68], 45, 0x7B) := by decide +kernel
/-- 95 DV2: the distance is checked before the second control bit. -/
theorem test_decPull_fault :
    (after .decPull (pulling [v11] [0])).map (fun t => (t.rsps, t.rdPos, statusWord t)) =
      some ([0x90000000000000000#68], 0, 0x904) := by decide +kernel
/-- 95 DV14. -/
theorem test_decEnd :
    answers .decEnd { pulling [v11, v11] [] with rdPos := 73 } = some [0x00000000000000049#68] := by decide +kernel
/-- 95 K12 and K3. -/
theorem test_readCsr :
    answers (.readCsr 6) State.reset = some [0x0000000100000400D#68] ∧
      answers (.readCsr 7) State.reset = some [0x60000000000000000#68] := by decide +kernel
/-- 95 P1, command 8. -/
theorem test_status :
    statusWord { seen .enc [v11] with wpart := 0xFE, wfill := 7, pb := some .b0 } = 0xFE7009 := by decide +kernel
/-- 95 P4, command 15. -/
theorem test_softReset :
    after .softReset { seen .fault [v11] with cause := some .badDistance, remaining := 1 } =
      some { State.reset with rsps := [0#68] } := by decide +kernel
/-- 95 K13. -/
theorem test_reserved : answers (.reserved 0xA) State.reset = some [0x10000000000000000#68] := by decide +kernel
/-- 95 L1.5. -/
theorem test_verbatim :
    (after (.verbatim v11) (pulling [] [])).map (fun t => (t.rsps, t.rdPos, t.mode, t.index)) =
      some ([0x03FF199999999999A#68], 64, .decRun, 1) := by decide +kernel
/-- 95 S4, decoded: distance 128 is index 0. -/
theorem test_exactMatch :
    (after (.exactMatch 0) (pulling (v11 :: List.replicate 127 0) [])).map (fun t => (t.rsps, t.rdPos)) =
      some ([0x03FF199999999999A#68], 9) := by decide +kernel
/-- 95 P2, command 17, and DV5. -/
theorem test_backRefPayload :
    answers (.backRefPayload 1 .b0 12 0x7FF) (pulling [v11] []) = some [0x0400199999999999A#68] ∧
      answers (.backRefPayload 1 .b24 63 0) (pulling [v11] []) = some [0xA0000000000000000#68] := by
  decide +kernel
/-- 95 E5, index 2, decoded, and DV4. -/
theorem test_prevSameBin :
    answers (.prevSameBin 2) { pulling [0x4000000000000001] [] with pb := some .b24 } =
        some [0x04000000000000003#68] ∧
      answers (.prevSameBin 2) (pulling [v11] []) = some [0xB0000000000000000#68] := by decide +kernel
/-- 95 DV11: a bin equal to `PB` is accepted. -/
theorem test_prevNewBin :
    (after (.prevNewBin .b24 1) { pulling [v11] [] with pb := some .b24 }).map (fun t => (t.rsps, t.rdPos, t.pb)) =
      some ([0x03FF199999999999B#68], 45, some .b24) := by decide +kernel

/-! ## The shared operations (95 L2.1 to L2.3) -/

/-- 95 B2, B3. -/
theorem test_putBits :
    (let t := putBits 0x1FF 9 State.reset
     (t.out, t.wpart, t.wfill, (finish t).out)) = ([0xFF], 0x80, 1, [0xFF, 0x80]) := by decide +kernel
/-- 95 B7. -/
theorem test_putRawValue :
    (putRawValue 0x0123456789ABCDEF State.reset).out = [0x01, 0x23, 0x45, 0x67, 0x89, 0xAB, 0xCD, 0xEF] := by
  decide +kernel
/-- 95 B8 to B11. -/
theorem test_readBits :
    readBits (inputBit (pulling [] [2])) 7 0 0 = .ok (1, 7) ∧
      inputBit (pulling [] [2]) 8 = .error (.violation .readOob) ∧
      readBits (inputBit (pulling [] [2])) 0 8 0 = .ok (0, 8) := by decide +kernel
/-- 95 BN1 to BN5. -/
theorem test_counts :
    [(0 : Value), 1, 0x8000000000000000, 0x7FF0000000000000, 0x00077D835836C000].map
        (fun x => (countLeading x, countTrailing x)) = [(64, 64), (63, 0), (0, 63), (1, 52), (13, 14)] := by
  decide +kernel
/-- 95 BN6. -/
theorem test_binOf :
    [0, 7, 8, 11, 12, 15, 16, 17, 18, 19, 20, 21, 22, 23, 24, 40, 64].map (fun c => binValue (binOf c)) =
      [0, 0, 8, 8, 12, 12, 16, 16, 18, 18, 20, 20, 22, 22, 24, 24, 24] := by decide
/-- 95 S1. -/
theorem test_hash : [v11, v22, 0xFFFFFFFFFFFFFFFF].map hashOf = [0x199A, 0x199A, 0x3FFF] := by decide +kernel
/-- 95 S5: a stale entry is a miss, and the scan's best is the nearest of the best. -/
theorem test_select_stale :
    (select (seen .enc ((List.range 129).map (BitVec.ofNat 64))) 0 129).toOption = some (128, 0x80) := by
  decide +kernel
/-- 95 S6: a tie goes to the nearest. -/
theorem test_select_tie :
    (select (seen .enc [0x10, 0x30]) 0 2).toOption = some (1, 0x30) := by decide +kernel

/-! ## Witnesses: concrete states and operands that meet each obligation's hypotheses -/

/-- Bits checked one by one are spelled. -/
theorem spells_of_check {src : BitSource} {pos : Nat} {bits : List Bool}
    (h : ∀ k ∈ List.range bits.length, src (pos + k) = .ok (bits.getD k false)) : Spells src pos bits := by
  intro k b hk
  obtain ⟨hlt, hb⟩ := List.getElem?_eq_some_iff.1 hk
  rw [h k (List.mem_range.2 hlt), List.getD_eq_getElem?_getD, hk]
  rfl

/-- What one committed value leaves is remembered. -/
theorem remembers_one (m : Mode) (v : Value) : Remembers [v] (seen m [v]) :=
  (Remembers.empty (s := State.reset) rfl rfl rfl).commit v rfl rfl rfl

/-- What two committed values leave is remembered. -/
theorem remembers_two (m : Mode) (v w : Value) : Remembers [v, w] (seen m [v, w]) :=
  (remembers_one m v).commit w rfl rfl rfl

theorem witness_CommandWordsDecode :
    10 ≤ (0xA#4).toNat ∧ 10 ≤ (0xF#4).toNat ∧ (Instr.reserved 0xA).wf = true ∧
      encodeCommand (.decFeed 0xFE) = some 0x500000000000000FE#68 ∧
      encodeCommand (.reserved 0xA) = some 0xA0000000000000000#68 := by decide

theorem witness_RecordRoundTrip :
    (Record.backRefPayload 0 .b24 40 0xFFFFFFFFFF).wf = true ∧
      (Record.backRefPayload 0 .b24 40 0xFFFFFFFFFF).fitsContext 128 none = true ∧
      Spells (stream (0b0#1 ++ 0b0000000#7 ++ 0b1#1 ++ 0b111#3 ++ 0b101000#6 ++ 0xFFFFFFFFFF#40)) 0
        (encodeRecord none (.backRefPayload 0 .b24 40 0xFFFFFFFFFF)) ∧
      (Record.prevSameBin 0xFFFFFFFFFF).fitsContext 1 (some .b24) = true ∧
      Spells (stream (0b10#2 ++ 0xFFFFFFFFFF#40)) 0 (encodeRecord (some .b24) (.prevSameBin 0xFFFFFFFFFF)) := by
  refine ⟨by decide, by decide, spells_of_check (by decide +kernel), by decide, spells_of_check (by decide +kernel)⟩

theorem witness_DecodedRecordIsSpelled :
    decodeRecord (stream 0b000000000#9) 128 none 0 = .ok (.exactMatch 0, 9) := by decide +kernel

theorem witness_CountsAreZeroRuns : (1 : Value) ≠ 0 ∧ (0x8000000000000000 : Value) ≠ 0 := by decide

theorem witness_BinOfIsTheGreatestBinBelow : 64 ≤ 64 ∧ 24 ∈ [0, 8, 12, 16, 18, 20, 22, 24] ∧ 24 ≤ 64 := by decide

theorem witness_FieldCodesAreInverse : 1 ≤ 128 ∧ 128 ≤ 128 ∧ (distanceField 128).toNat = 0 := by decide

theorem witness_BinLeavesRoom :
    countLeading 0x0100000000000000 = 7 ∧ countLeading 0x0000010000000000 = 23 ∧
      countLeading 0x0000008000000000 = 24 ∧ countLeading 1 = 63 ∧ countLeading 0 = 64 := by decide +kernel

theorem witness_PutBitFillsTheNextBit :
    ({ State.reset with wfill := 6 } : State).wfill.toNat < 7 ∧ State.reset.wfill.toNat < 7 ∧
      ({ State.reset with wfill := 7 } : State).wfill.toNat = 7 := by decide

theorem witness_FinishPadsToAByte :
    WriterOk State.reset ∧ State.reset.wfill = 0 ∧
      WriterOk { State.reset with wpart := 0x80, wfill := 1 } := by
  refine ⟨⟨fun k _ => by simp [State.reset], rfl⟩, rfl, ⟨fun k hk => ?_, rfl⟩⟩
  have : k < 7 := hk
  interval_cases k <;> rfl

theorem witness_WriterAccounting :
    State.reset.out = [] ∧ State.reset.outLen = 0 ∧ State.reset.wpart = 0 ∧ State.reset.wfill = 0 := by decide

theorem witness_ReadBitsShiftsIn :
    8 * (pulling [] [2]).inLen ≤ 8 ∧ Table.read (pulling [] [2]).inMem (7 / 8) = some 2 ∧
      (∀ k, k < 7 → inputBit (pulling [] [2]) (0 + k) = .ok ((1 : Value).getLsbD (7 - 1 - k))) ∧
      inputBit (pulling [] [2]) (7 + 1) = .error (.violation .readOob) ∧
      ∀ j, j < 1 → ∃ b, inputBit (pulling [] [2]) (7 + j) = .ok b := by
  refine ⟨by decide, by decide +kernel, by decide +kernel, by decide +kernel, fun j hj => ⟨false, ?_⟩⟩
  have : j = 0 := by omega
  subst this; decide +kernel

theorem witness_ReaderRecoversTheWriter :
    (pulling [] [0xA0]).inLen = (finish ([true, false, true].foldl (fun u b => putBit b u) State.reset)).out.length ∧
      ∀ a, Table.read (pulling [] [0xA0]).inMem a =
        (finish ([true, false, true].foldl (fun u b => putBit b u) State.reset)).out[a]? := by
  have h : (finish ([true, false, true].foldl (fun u b => putBit b u) State.reset)).out = [0xA0] := by
    decide +kernel
  rw [h]
  refine ⟨rfl, fun a => ?_⟩
  cases a <;> simp [pulling, loadBytes, Table.read]

theorem witness_RawValueIsBigEndian : State.reset.wfill = 0 := by decide

/-- A hit at the bound, a stale entry just past it, and a missing one. -/
theorem witness_SelectTakesTheLookup :
    (Table.read (seen .enc [v11]).lut (hashOf v11) = some 0 ∧ 0 < 128 ∧ 128 - 0 ≤ 128 ∧
      Table.read (seen .enc [v11]).ring (0 % 128) = some v11) ∧ 128 < 129 - 0 ∧
      Table.read (seen .enc [v11]).lut (hashOf 0) = none := by decide +kernel

theorem witness_ScanTakesAMaximiser :
    ∀ e, 1 ≤ e → e ≤ min 2 128 → (Table.read (seen .enc [0x10, 0x30]).ring ((2 - e) % 128)).isSome := by
  intro e h1 h2
  have : e ≤ 2 := by omega
  interval_cases e <;> decide +kernel

theorem witness_SelectStaysInTheWindow : select (seen .enc [v11]) v22 1 = .ok (0, v11) := by decide +kernel

theorem witness_SelectAlwaysFinds : Remembers [v11] (seen .enc [v11]) ∧ 1 ≤ (seen .enc [v11]).index :=
  ⟨remembers_one .enc v11, by decide⟩

/-- A miss, and a hit. -/
theorem witness_ScanYieldsAtMost13 :
    Remembers [v11, v11] (seen .enc [v11, v11]) ∧
      select (seen .enc [v11, v11]) 0 2 = .ok (1, v11) ∧
      Table.read (seen .enc [v11, v11]).lut (hashOf 0) = none ∧
      select (seen .enc [v11, v11]) v22 2 = .ok (1, v11) ∧
      Table.read (seen .enc [v11, v11]).lut (hashOf v22) = some 1 :=
  ⟨remembers_two .enc v11 v11, by decide +kernel, by decide +kernel, by decide +kernel, by decide +kernel⟩

theorem witness_EncPushWritesVerbatimFirst :
    (seen .enc []).config.wf ∧ (seen .enc []).mode = .enc ∧ (seen .enc []).index = 0 := by decide +kernel

theorem witness_EncPushWritesExactMatch :
    (seen .enc [v11]).mode = .enc ∧ 1 ≤ (seen .enc [v11]).index ∧
      (seen .enc [v11]).index ≠ 2 ^ (seen .enc [v11]).config.idxW - 1 ∧
      select (seen .enc [v11]) v11 (seen .enc [v11]).index = .ok (0, v11) := by decide +kernel

/-- 95 E1: one trailing zero more than the threshold, the boundary. -/
theorem witness_EncPushWritesBackRefPayload :
    (seen .enc [0]).mode = .enc ∧ 1 ≤ (seen .enc [0]).index ∧
      (seen .enc [0]).index ≠ 2 ^ (seen .enc [0]).config.idxW - 1 ∧
      select (seen .enc [0]) 0x4000 (seen .enc [0]).index = .ok (0, 0) ∧ (0x4000 : Value) ≠ 0 ∧
      (seen .enc [0]).config.brThreshold.toNat < countTrailing (0x4000 ^^^ 0) ∧
      countTrailing (0x4000 ^^^ 0) = 14 := by decide +kernel

/-- 95 E2, at the threshold itself, and the two cases of `PB`. -/
theorem witness_EncPushWritesPrevRecord :
    let s := { seen .enc [0] with config := { Config.standard with brThreshold := 14 } }
    s.mode = .enc ∧ 1 ≤ s.index ∧ s.index ≠ 2 ^ s.config.idxW - 1 ∧
      select s 0x4000 s.index = .ok (0, 0) ∧ countTrailing (0x4000 ^^^ 0) ≤ s.config.brThreshold.toNat ∧
      Table.read s.ring ((s.index - 1) % 128) = some 0 ∧ binOf (countLeading (0x4000 ^^^ 0)) = .b24 ∧
      s.pb ≠ some .b24 ∧ ({ s with pb := some .b24 } : State).pb = some .b24 := by decide +kernel

/-- An open encode job that has seen one value, in the invariant. -/
theorem inv_encoding : (seen .enc [v11]).Inv := by
  refine ⟨by decide, by decide +kernel, by decide +kernel, by decide, by decide +kernel,
    ⟨[v11], remembers_one .enc v11⟩, fun a => ?_, by decide, by decide, fun k _ => ?_, by decide, by decide,
    fun _ => rfl, by decide, by decide⟩
  · show (Table.read [] a).isSome = true ↔ a < 0
    simp
  · show (0 : BitVec 8).getLsbD k = false
    simp

theorem witness_EncoderNeverFaults :
    (seen .enc [v11]).Inv ∧ (seen .enc [v11]).mode = .enc ∧
      (seen .enc [v11]).index ≠ 2 ^ (seen .enc [v11]).config.idxW - 1 :=
  ⟨inv_encoding, rfl, by decide +kernel⟩

theorem witness_EncoderEmitsCanonicalRecords :
    chooseRecord (seen .enc [0]) 0x4000 = .ok (.backRefPayload 1 .b24 26 1) := by decide +kernel

theorem witness_CloseCommandsEndTheJob :
    (seen .enc []).mode = .enc ∧ ({ seen .enc [] with wfill := 1 } : State).wfill ≠ 0 ∧
      (seen .idle []).mode ≠ .enc ∧ (seen .decLoad []).mode = .decLoad ∧ (seen .decRun [v11]).mode = .decRun ∧
      (seen .idle []).mode ≠ .decLoad ∧ (seen .idle []).mode ≠ .decRun := by decide

theorem witness_ScanTieHasNoEffect :
    (seen .enc [v11]).Inv ∧ 13 ≤ (seen .enc [v11]).config.brThreshold.toNat ∧
      (seen .enc [v11]).config.scanTie = .nearest ∧ ∃ t, exec (.encPush 0) (seen .enc [v11]) = .next t :=
  ⟨inv_encoding, by decide, rfl, ⟨_, rfl⟩⟩

theorem witness_DecFeedAppendsAByte :
    (pulling [] [1]).mode = .decLoad ∧ (pulling [] [1]).inLen ≠ (pulling [] [1]).config.inCap ∧
      (pulling [v11] [1]).mode ≠ .decLoad ∧
      ({ pulling [] [1] with config := { Config.standard with inCap := 1 } } : State).inLen = 1 := by decide

/-- K14's order: the index is full too where the count is exhausted. -/
theorem witness_JobRejectsComeInOrder :
    let full := { pulling [v11] [] with index := 255, config := { Config.standard with idxW := 8 } }
    (seen .idle []).mode ≠ .enc ∧ ({ full with mode := .enc } : State).index = 2 ^ full.config.idxW - 1 ∧
      (seen .idle []).mode ≠ .decLoad ∧ (seen .idle []).mode ≠ .decRun ∧
      ({ full with remaining := 0 } : State).mode = .decRun ∧ ({ full with remaining := 0 } : State).remaining = 0 ∧
      full.mode = .decRun ∧ full.remaining ≠ 0 ∧ full.index = 2 ^ full.config.idxW - 1 := by decide +kernel

/-- Pulls are accepted at index 0 and after it. -/
theorem canPull_small (bytes : List Byte) : CanPull (pulling [] bytes) ∧ CanPull (pulling [v11] bytes) :=
  ⟨⟨.inl rfl, (by decide : (3 : BitVec 64) ≠ 0), (by decide +kernel : 0 ≠ 2 ^ 64 - 1)⟩,
    ⟨.inr rfl, (by decide : (3 : BitVec 64) ≠ 0), (by decide +kernel : 1 ≠ 2 ^ 64 - 1)⟩⟩

theorem witness_PullExecutesTheFetchedRecord :
    fetchRecord (pulling [v11] [0x01, 0x00]) = .ok (.exactMatch 1, 9) := by decide +kernel

theorem witness_PullCompletes :
    CanPull (pulling [v11] [0x01, 0x00]) ∧ (Record.exactMatch 1).wf = true ∧
      (Record.exactMatch 1).fitsContext (pulling [v11] [0x01, 0x00]).index none = true ∧
      Spells (inputBit (pulling [v11] [0x01, 0x00])) (pulling [v11] [0x01, 0x00]).rdPos.toNat
        (encodeRecord none (.exactMatch 1)) ∧
      ∀ e, 1 ≤ e → e ≤ min (pulling [v11] [0x01, 0x00]).index 128 →
        (Table.read (pulling [v11] [0x01, 0x00]).ring (((pulling [v11] [0x01, 0x00]).index - e) % 128)).isSome := by
  refine ⟨(canPull_small _).2, by decide, by decide, spells_of_check (by decide +kernel), fun e h1 h2 => ?_⟩
  have h3 : e ≤ min 1 128 := h2
  have : e = 1 := by omega
  subst this; decide +kernel

theorem witness_VerbatimReturnsItsValue : CanPull (pulling [] []) ∧ (pulling [] []).index = 0 :=
  ⟨(canPull_small []).1, rfl⟩

/-- The farthest distance that reaches a value, and the nearest that does not. -/
theorem witness_ExactMatchReturnsTheReference :
    CanPull (pulling [v11] []) ∧ 1 ≤ (pulling [v11] []).index ∧
      distanceOf 1 ≤ (pulling [v11] []).index ∧
      Table.read (pulling [v11] []).ring (((pulling [v11] []).index - distanceOf 1) % 128) = some v11 ∧
      (pulling [v11] []).index < distanceOf 2 ∧ (pulling [v11] []).index < distanceOf 0 := by
  refine ⟨(canPull_small []).2, ?_⟩
  decide +kernel

/-- The longest payload that fits its bin, and the shortest that does not. -/
theorem witness_BackRefPayloadReturnsTheXor :
    CanPull (pulling [v11] []) ∧ distanceOf 1 ≤ (pulling [v11] []).index ∧
      Table.read (pulling [v11] []).ring (((pulling [v11] []).index - distanceOf 1) % 128) = some v11 ∧
      binValue .b24 + (40 : BitVec 6).toNat ≤ 64 ∧ 64 < binValue .b24 + (41 : BitVec 6).toNat ∧
      (pulling [v11] []).index < distanceOf 2 := by
  refine ⟨(canPull_small []).2, ?_⟩
  decide +kernel

theorem witness_PrevRecordsReturnTheXor :
    CanPull (pulling [v11] []) ∧ 1 ≤ (pulling [v11] []).index ∧
      Table.read (pulling [v11] []).ring (((pulling [v11] []).index - 1) % 128) = some v11 ∧
      (pulling [v11] []).pb = none ∧ ({ pulling [v11] [] with pb := some .b24 } : State).pb = some .b24 := by
  refine ⟨(canPull_small []).2, ?_⟩
  decide +kernel

/-- 95 DV3, DV5 and DV4. -/
theorem witness_FaultsComeInStreamOrder :
    CanPull (pulling [v11] [0x04]) ∧ 1 ≤ (pulling [v11] [0x04]).index ∧
      (pulling [v11] [0x04]).index < distanceOf 4 ∧
      Spells (inputBit (pulling [v11] [0x04])) 0 ([false] ++ fieldBits 7 ((4 : BitVec 7).zeroExtend 64)) ∧
      64 < binValue .b24 + (63 : BitVec 6).toNat ∧
      Spells (inputBit (pulling [v11] [0x01, 0xFF, 0xC0])) 0
        ([false] ++ fieldBits 7 ((1 : BitVec 7).zeroExtend 64) ++ [true] ++
          fieldBits 3 ((encodeBin .b24).zeroExtend 64) ++ fieldBits 6 ((63 : BitVec 6).zeroExtend 64)) ∧
      (pulling [v11] [0x80]).pb = none ∧ Spells (inputBit (pulling [v11] [0x80])) 0 [true, false] := by
  refine ⟨(canPull_small _).2, by decide, by decide, spells_of_check (by decide +kernel), by decide,
    spells_of_check (by decide +kernel), rfl, spells_of_check (by decide +kernel)⟩

/-- 95 DV9: the first eight of nine bits are there. -/
theorem witness_TruncatedRecordReadsOutOfBounds :
    CanPull (pulling [v11] [0x01]) ∧
      (Record.exactMatch 1).fitsContext (pulling [v11] [0x01]).index none = true ∧
      (pulling [v11] [0x01]).rdPos.toNat ≤ 8 * (pulling [v11] [0x01]).inLen ∧
      8 * (pulling [v11] [0x01]).inLen < 0 + (encodeRecord none (.exactMatch 1)).length ∧
      Spells (inputBit (pulling [v11] [0x01])) 0 ((encodeRecord none (.exactMatch 1)).take 8) :=
  ⟨(canPull_small _).2, by decide, by decide, by decide +kernel, spells_of_check (by decide +kernel)⟩

/-- 95 DV4 and DV7 once more: stuck states that no run reaches. -/
theorem witness_StuckStatesStopByName :
    CanPull (pulling [v11] []) ∧ CanPull (pulling [] []) ∧
      (let t := { pulling [v11] [] with ring := [] }
       CanPull t ∧ 1 ≤ t.index ∧ Table.read t.ring ((t.index - 1) % 128) = none ∧ distanceOf 1 ≤ t.index) ∧
      (let t := { pulling [v11] [] with inLen := 1 }
       CanPull t ∧ t.rdPos.toNat < 8 * t.inLen ∧ Table.read t.inMem (t.rdPos.toNat / 8) = none) ∧
      (let t := { seen .enc [v11] with lut := [(0x199A, 1)] }
       t.mode = .enc ∧ 1 ≤ t.index ∧ Table.read t.lut (hashOf v11) = some 1 ∧ t.index ≤ 1) ∧
      (let t := { seen .enc [v11] with ring := [] }
       Table.read t.lut (hashOf v11) = some 0 ∧ 0 < t.index ∧ Table.read t.ring (0 % 128) = none) := by
  refine ⟨(canPull_small []).2, (canPull_small []).1, ⟨⟨.inr rfl, by decide, by decide +kernel⟩, ?_⟩,
    ⟨⟨.inr rfl, by decide, by decide +kernel⟩, ?_⟩, ?_, ?_⟩ <;> decide +kernel

theorem witness_FaultEntryIsAtomic :
    (pulling [v11] [0x80]).mode ≠ .fault ∧
      after .decPull (pulling [v11] [0x80]) = some (enterFault .noPrevBin (pulling [v11] [0x80])) := by
  decide +kernel

theorem witness_DecoderIgnoresTheSelector : ∃ t, exec .decPull (pulling [v11] [0x01, 0x00]) = .next t := ⟨_, rfl⟩

/-- The second value of 95 P1, pushed and pulled. -/
theorem witness_DecoderKeepsLockStep :
    let e := seen .enc [v11]
    let d := pulling [v11] [0x01, 0x00]
    Remembers [v11] e ∧ Remembers [v11] d ∧ e.pb = d.pb ∧ e.mode = .enc ∧ e.index ≠ 2 ^ e.config.idxW - 1 ∧
      CanPull d ∧ ∃ e', exec (.encPush v11) e = .next e' ∧
        bitsWritten e' = bitsWritten e ++ encodeRecord none (.exactMatch 1) ∧
        Spells (inputBit d) d.rdPos.toNat (encodeRecord none (.exactMatch 1)) := by
  refine ⟨remembers_one .enc v11, (remembers_one .decRun v11).congr rfl rfl rfl, rfl, rfl, by decide +kernel,
    (canPull_small _).2, ?_⟩
  obtain ⟨t, ht⟩ : ∃ t, chooseRecord (seen .enc [v11]) v11 = .ok t ∧ t = .exactMatch 1 :=
    ⟨.exactMatch 1, by decide +kernel, rfl⟩
  obtain ⟨hr, rfl⟩ := ht
  exact ⟨_, execEncPush_chosen rfl (by decide +kernel) hr, commitPush_bits _ _ _ _,
    spells_of_check (by decide +kernel)⟩

theorem witness_ReadCsrReturnsTheRegister :
    7 ≤ (7 : BitVec 64).toNat ∧ 7 ≤ (0xFFFFFFFFFFFFFFFF : BitVec 64).toNat := by decide

theorem witness_OneResponsePerCommand : ∃ t, exec .nop State.reset = .next t := ⟨_, rfl⟩

theorem witness_RejectsChangeNothing :
    Status.isReject .badCsr = true ∧
      exec (.readCsr 7) State.reset = .next { State.reset with rsps := [responseWord .badCsr 0] } := ⟨rfl, rfl⟩

/-- Leaving `FAULT`, and a reject that stays in it (95 K8, K9). -/
theorem witness_FaultIsLeftByStartingOver :
    (seen .fault [v11]).mode = .fault ∧ startsOver .softReset = true ∧ startsOver .decPull = false ∧
      (∃ t, exec .softReset (seen .fault [v11]) = .next t) ∧ ∃ t, exec .decPull (seen .fault [v11]) = .next t :=
  ⟨rfl, rfl, rfl, ⟨_, rfl⟩, ⟨_, rfl⟩⟩

theorem witness_InputIsFrozenWhileDecoding :
    (pulling [v11] [0x01, 0x00]).mode = .decRun ∧ startsOver (.decFeed 0) = false ∧
      ∃ t, exec (.decFeed 0) (pulling [v11] [0x01, 0x00]) = .next t := ⟨rfl, rfl, ⟨_, rfl⟩⟩

theorem witness_JobStateOnlyGrows :
    startsOver (.encPush v11) = false ∧ ∃ t, exec (.encPush v11) (seen .enc []) = .next t := ⟨rfl, ⟨_, rfl⟩⟩

theorem witness_StepRunsTheDecodedCommand :
    ({ State.reset with port := [.command pullWord] } : State).port = .command pullWord :: [] ∧
      ({ State.reset with port := [.externalReset] } : State).port = .externalReset :: [] ∧
      State.reset.port = [] := by decide

theorem witness_StepKeepsTheInvariant :
    State.Inv { seen .enc [v11] with port := [.command 0x20000000000000005#68] } ∧
      ∃ t, step { seen .enc [v11] with port := [.command 0x20000000000000005#68] } = .next t :=
  ⟨inv_encoding.streams _ _, ⟨_, rfl⟩⟩

/-- A sequence that runs to a next state with the property. -/
theorem runs_to {r : Result} (p : State → Bool)
    (h : (match r with | .next t => p t | _ => false) = true) : ∃ t, r = .next t ∧ p t = true := by
  cases r <;> simp_all

/-- The stream of 95 DV8, whose third record needs 64 bits and finds 6. -/
def dv8 : List Byte := verbatimBytes 0x3FF199999999999A ++ [0x01, 0x80, 0x20]

/-- 95 DV8 and R247: DECODE of three values answers DEC_START, eleven DEC_FEED, two values and READ_OOB, and then nothing:
RD_POS is 82 and STATUS 0x80C. -/
theorem test_decode_stops_at_the_first_fault :
    ∃ t, runDecode dv8 3 State.reset = .next t ∧
      decide (t.rsps.length = 15 ∧ t.rsps[14]? = some (0x8#4 ++ 0#64) ∧ t.rdPos = 82 ∧ statusWord t = 0x80C) = true :=
  runs_to _ (by decide +kernel)

theorem witness_DecodeInvertsEncode :
    (State.reset.config.wf ∧ [v11].length < 2 ^ State.reset.config.idxW ∧
      ∃ t, runCommands (encodeJob [v11]) State.reset = .next t ∧
        decide (t.out.length ≤ State.reset.config.inCap) = true) ∧
    (∃ u, andThen (runCommands (loadJob dv8 2) State.reset) (runCommands (List.replicate 2 .decPull)) = .next u ∧
      decide (u.mode ≠ .fault) = true) ∧
    ∃ u, andThen (andThen (runCommands (loadJob dv8 3) State.reset) (runCommands (List.replicate 2 .decPull)))
        (fun u => if u.mode = .fault then .next u else exec .decPull u) = .next u ∧
      decide (u.mode = .fault ∧ u.rdPos = 82) = true :=
  ⟨⟨by decide +kernel, by decide +kernel, runs_to _ (by decide +kernel)⟩, runs_to _ (by decide +kernel),
    runs_to _ (by decide +kernel)⟩

theorem witness_PutBitsWritesTheField : 0 ≤ 64 ∧ 64 ≤ 64 := by decide

theorem witness_InvariantStatesNeverStop :
    State.Inv { seen .enc [v11] with port := [.command 0x20000000000000005#68] } := inv_encoding.streams _ _

theorem witness_NopAndReservedChangeNothing : 10 ≤ (0xA#4).toNat ∧ 10 ≤ (0xF#4).toNat := by decide

end Sys2Proof.Tests
end

/-!
STATUS and CONFIG field by field (10 R36), for the obligation on the layouts. A field is read off a concatenation part by
part: parts below it are dropped, parts above it are cut off, and what remains is the whole part.
-/

namespace Sys2Proof.Machine

theorem pbValid_eq (s : State) : pbValid s = if s.pb.isSome then 1#1 else 0#1 := rfl

theorem pbCode_eq (s : State) : pbCode s = (match s.pb with | none => 0#3 | some b => encodeBin b) := by
  unfold pbCode
  cases s.pb <;> rfl

/-- STATUS from bit 0 up (10 R36): the seven fields with the reserved bits between and above them. -/
theorem statusWord_fields (s : State) :
    (statusWord s).extractLsb' 0 3 = modeCode s.mode ∧ (statusWord s).extractLsb' 3 1 = pbValid s ∧
    (statusWord s).extractLsb' 4 3 = pbCode s ∧ (statusWord s).extractLsb' 7 1 = 0#1 ∧
    (statusWord s).extractLsb' 8 4 = causeCode s.cause ∧ (statusWord s).extractLsb' 12 3 = s.wfill ∧
    (statusWord s).extractLsb' 15 1 = 0#1 ∧ (statusWord s).extractLsb' 16 8 = s.wpart ∧
    (statusWord s).extractLsb' 24 40 = 0#40 := by
  refine ⟨?mode, ?pbValid, ?pbCode, ?bit7, ?cause, ?wfill, ?bit15, ?wpart, ?above⟩ <;>
    simp (disch := omega) only [statusWord, BitVec.extractLsb'_append_eq_of_le,
      BitVec.extractLsb'_append_eq_of_add_le, BitVec.extractLsb'_eq_self, Nat.reduceSub]

/-- CONFIG from bit 0 up (10 R36), before the saturated `IN_CAP` is read as a number. -/
theorem configWord_fields (c : Config) :
    (configWord c).extractLsb' 0 6 = c.brThreshold ∧ (configWord c).extractLsb' 6 2 = 0#2 ∧
    (configWord c).extractLsb' 8 8 = BitVec.ofNat 8 c.idxW ∧
    (configWord c).extractLsb' 16 48 = BitVec.ofNat 48 (min c.inCap (2 ^ 48 - 1)) := by
  refine ⟨?brThreshold, ?reserved, ?idxW, ?inCap⟩ <;>
    simp (disch := omega) only [configWord, BitVec.extractLsb'_append_eq_of_le,
      BitVec.extractLsb'_append_eq_of_add_le, BitVec.extractLsb'_eq_self, Nat.reduceSub]

/-- The saturated `IN_CAP` fits its 48 bits, so the field loses nothing of it. -/
theorem configWord_inCap_toNat (c : Config) :
    ((configWord c).extractLsb' 16 48).toNat = min c.inCap (2 ^ 48 - 1) := by
  obtain ⟨-, -, -, hcap⟩ := configWord_fields c
  rw [hcap, BitVec.toNat_ofNat]
  exact Nat.mod_eq_of_lt (by omega)

theorem modeCode_le (m : Mode) : (modeCode m).toNat ≤ 4 := by
  cases m <;> decide

theorem causeCode_mem (c : Option FaultCode) : (causeCode c).toNat ∈ [0, 8, 9, 10, 11] := by
  cases c with
  | none => decide
  | some f => cases f <;> decide

theorem statusWord_reset : statusWord State.reset = 0 := by decide

/-- Settles O46: the fields of the two words, the ranges of the two codes, and the word at reset. -/
theorem csrFieldsAreLaidOut : Obligations.CsrFieldsAreLaidOut := by
  intro s
  obtain ⟨hmode, hvalid, hcode, h7, hcause, hfill, h15, hpart, habove⟩ := statusWord_fields s
  obtain ⟨hbr, hres, hidx, -⟩ := configWord_fields s.config
  exact ⟨hmode, hvalid.trans (pbValid_eq s), hcode.trans (pbCode_eq s), h7, hcause, hfill, h15, hpart, habove,
    hbr, hres, hidx, configWord_inCap_toNat s.config, modeCode_le s.mode, causeCode_mem s.cause, statusWord_reset⟩

end Sys2Proof.Machine


/-!
One response per command (45 R245, 30 R98): every way an instruction can answer (`Steps`) ends in one `respond`, whose
data is 0 off `OK`, from a state with the responses of the old one.
-/

namespace Sys2Proof.Machine

/-- From `s` to `t` one response was delivered, and its data is 0 on any status but `OK`. -/
def AnsweredOnce (s t : State) : Prop :=
  ∃ st d, t.rsps = s.rsps ++ [responseWord st d] ∧ (st ≠ .ok → d = 0)

/-- A command that leaves the responses alone and then returns `d` has answered once. -/
theorem respondOk_answeredOnce (d : BitVec 64) {s u : State} (h : u.rsps = s.rsps) :
    AnsweredOnce s (respondOk d u) :=
  ⟨.ok, d, by rw [respond_rsps, h], fun hok => absurd rfl hok⟩

theorem reject_answeredOnce (st : Status) (s : State) : AnsweredOnce s (reject st s) :=
  ⟨st, 0, respond_rsps s st 0, fun _ => rfl⟩

theorem enterFault_answeredOnce (c : FaultCode) (s : State) : AnsweredOnce s (enterFault c s) :=
  ⟨.fault c, 0, enterFault_rsps s c, fun _ => rfl⟩

theorem Steps.answeredOnce {i : Instr} {s t : State} (h : Steps i s t) : AnsweredOnce s t := by
  cases h with
  | rejected st _ => exact reject_answeredOnce st s
  | nop => exact respondOk_answeredOnce 0 rfl
  | readCsr d _ => exact respondOk_answeredOnce d rfl
  | softReset => exact respondOk_answeredOnce 0 (resetCore_rsps s)
  | encStart => exact respondOk_answeredOnce 0 (clearJob_rsps s)
  | encPush r _ _ _ => exact respondOk_answeredOnce _ ((commitPush_rsps _ _ r).trans (emit_same r s).rsps)
  | encFinish _ => exact respondOk_answeredOnce _ (finish_same s).rsps
  | decStart => exact respondOk_answeredOnce 0 (clearJob_rsps s)
  | decFeed _ _ => exact respondOk_answeredOnce _ (feedByte_rsps s _)
  | pulled r pos v _ _ _ => exact respondOk_answeredOnce v (commitPull_rsps s v r pos)
  | pullFault c _ => exact enterFault_answeredOnce c s
  | executed r v _ _ _ => exact respondOk_answeredOnce v (commitPull_rsps s v r _)
  | recordFault _ c _ => exact enterFault_answeredOnce c s
  | decEnd _ => exact respondOk_answeredOnce _ rfl

/-- The response word is the 4-bit status above the 64-bit data (30 R98). -/
theorem responseWord_fields (st : Status) (d : BitVec 64) :
    (responseWord st d).extractLsb' 64 4 = statusCode st ∧ (responseWord st d).extractLsb' 0 64 = d :=
  ⟨BitVec.extractLsb'_append_eq_left, BitVec.extractLsb'_append_eq_right⟩

/-- Settles O50: whatever the instruction did, it answered once, in a word with these two fields. -/
theorem oneResponsePerCommand : Obligations.OneResponsePerCommand := by
  intro i s t h
  obtain ⟨st, d, hrsps, hdata⟩ := (exec_steps h).answeredOnce
  exact ⟨st, d, hrsps, hdata, responseWord_fields st d⟩

end Sys2Proof.Machine


/-!
The bitstream cursor (40 R120 to R129). The writer's two operations are stated once per case of `WFILL`; the rest
follows from the bits written (`bitsWritten`) and the writer's own invariant (`WriterOk`). The reader side turns on one
fact: an input that holds `out` spells the bits of its bytes.
-/

namespace Sys2Proof.Machine

/-! ## One operation of the writer, by the value of `WFILL` -/

/-- A byte with room left only takes the bit (40 R120). -/
theorem putBit_of_room (b : Bool) {s : State} (h : s.wfill.toNat < 7) :
    putBit b s = { s with wpart := setBit s.wpart (7 - s.wfill.toNat) b, wfill := s.wfill + 1 } :=
  if_neg fun h7 : s.wfill = 7 => by rw [h7] at h; exact absurd h (by decide)

/-- The eighth bit flushes the byte (40 R120). -/
theorem putBit_of_eighth (b : Bool) {s : State} (h : s.wfill.toNat = 7) :
    putBit b s = { appendByte (setBit s.wpart 0 b) s with wpart := 0, wfill := 0 } := by
  have h7 : s.wfill = 7 := BitVec.eq_of_toNat_eq h
  simp [putBit, h7]

theorem finish_of_empty {s : State} (h : s.wfill = 0) : finish s = s := if_pos h

theorem finish_of_filled {s : State} (h : s.wfill ≠ 0) :
    finish s = { appendByte s.wpart s with wpart := 0, wfill := 0 } := if_neg h

/-- Settles O9: the two cases of `WFILL`, read off bit by bit. -/
theorem putBitFillsTheNextBit : Obligations.PutBitFillsTheNextBit := by
  refine fun b s => ⟨putBit_same b s, fun hroom => ?room, fun heighth => ?eighth⟩
  case room =>
    rw [putBit_of_room b hroom]
    have hcount : (s.wfill + 1).toNat = s.wfill.toNat + 1 := BitVec.toNat_add_of_lt (by simp; omega)
    exact ⟨hcount, rfl, rfl, fun k hk => getLsbD_setBit s.wpart (by omega) hk b⟩
  case eighth =>
    rw [putBit_of_eighth b heighth]
    exact ⟨rfl, rfl, rfl, setBit s.wpart 0 b, rfl, fun k hk => getLsbD_setBit s.wpart (by omega) hk b⟩

/-- Settles O10, from the bits `put_bits` appends (`bitsWritten_putBits`). -/
theorem putBitsWritesTheField : Obligations.PutBitsWritesTheField := by
  intro x width s _
  refine ⟨putBits_same x width s, ?_, rfl⟩
  rw [map_range_field, bitsWritten_putBits]

/-- With no bit filled every bit of `WPART` is unfilled, hence 0 (10 R26). -/
theorem WriterOk.wpart_eq_zero {s : State} (h : WriterOk s) (h0 : s.wfill = 0) : s.wpart = 0 := by
  apply BitVec.eq_of_getLsbD_eq
  intro k hk
  rw [h.part_clear k (by simpa [h0] using hk)]
  simp

theorem finish_wpart {s : State} (h : WriterOk s) : (finish s).wpart = 0 := by
  by_cases h0 : s.wfill = 0
  · rw [finish_of_empty h0, h.wpart_eq_zero h0]
  · rw [finish_of_filled h0]

/-- Settles O11: `finish` by the two cases of `WFILL`. -/
theorem finishPadsToAByte : Obligations.FinishPadsToAByte := by
  intro s h
  refine ⟨finish_same s, finish_wfill s, finish_wpart h, bitsWritten_finish h, finish_of_empty, fun h0 => ?_⟩
  rw [finish_of_filled h0]
  exact ⟨rfl, rfl⟩

/-! ## A sequence of bits from an empty writer -/

theorem bitsWritten_foldl_putBit (bits : List Bool) (s : State) :
    bitsWritten (bits.foldl (fun u b => putBit b u) s) = bitsWritten s ++ bits := by
  induction bits generalizing s with
  | nil => simp
  | cons b bits ih => simp [ih, bitsWritten_putBit]

theorem foldl_putBit_ok (bits : List Bool) {s : State} (h : WriterOk s) :
    WriterOk (bits.foldl (fun u b => putBit b u) s) := by
  induction bits generalizing s with
  | nil => exact h
  | cons b bits ih => exact ih (putBit_ok b h)

theorem writerOk_of_empty {s : State} (hout : s.out = []) (hlen : s.outLen = 0) (hpart : s.wpart = 0) :
    WriterOk s :=
  ⟨fun k _ => by rw [hpart]; simp, by rw [hlen, hout]; rfl⟩

theorem bitsWritten_of_empty {s : State} (hout : s.out = []) (hfill : s.wfill = 0) : bitsWritten s = [] := by
  simp [bitsWritten, hout, hfill]

/-- At a byte boundary the bits written are those of `OUT`. -/
theorem bitsWritten_of_boundary {s : State} (hfill : s.wfill = 0) : bitsWritten s = s.out.flatMap byteBits := by
  simp [bitsWritten, hfill]

/-- The two counts of the writer split the number of bits written (40 R128). -/
theorem counts_of_bitsWritten {s : State} {bits : List Bool} (h : bitsWritten s = bits) :
    s.out.length = bits.length / 8 ∧ s.wfill.toNat = bits.length % 8 := by
  have hlt : s.wfill.toNat < 8 := s.wfill.isLt
  have hlen := bitsWritten_length s
  rw [h] at hlen
  omega

/-- After `finish` the bytes of `OUT` are the bits written, padded to the byte boundary (40 R128). -/
theorem finish_out_bits {s : State} {bits : List Bool} (hok : WriterOk s) (h : bitsWritten s = bits) :
    (finish s).out.flatMap byteBits = bits ++ List.replicate ((8 - bits.length % 8) % 8) false := by
  obtain ⟨-, hfill⟩ := counts_of_bitsWritten h
  rw [← bitsWritten_of_boundary (finish_wfill s), bitsWritten_finish hok, h, hfill]

theorem finish_out_length {s : State} {bits : List Bool} (hok : WriterOk s) (h : bitsWritten s = bits) :
    (finish s).out.length = (bits.length + 7) / 8 := by
  obtain ⟨-, hfill⟩ := counts_of_bitsWritten h
  obtain ⟨hlen, -⟩ := counts_of_bitsWritten (bitsWritten_finish hok)
  rw [hlen, h, hfill, List.length_append, List.length_replicate]
  omega

/-- Settles O12: the bits written are the sequence, `OUT_LEN` counts `OUT`, and the lengths follow. -/
theorem writerAccounting : Obligations.WriterAccounting := by
  intro bits s hout hlen hpart hfill t
  have hok : WriterOk t := foldl_putBit_ok bits (writerOk_of_empty hout hlen hpart)
  have hbits : bitsWritten t = bits := by
    rw [bitsWritten_foldl_putBit, bitsWritten_of_empty hout hfill, List.nil_append]
  obtain ⟨hbytes, hheld⟩ := counts_of_bitsWritten hbits
  have hfin := finish_out_length hok hbits
  refine ⟨hbytes, ?_, hheld, hfin, ?_, finish_out_bits hok hbits⟩
  · rw [hok.out_counted, hbytes]
  · rw [(finish_ok hok).out_counted, hfin]

/-! ## The reader -/

/-- Below the bound a bit is the one of its byte (40 R124). -/
theorem inputBit_read {s : State} {p : Nat} {byte : Byte} (hp : p < 8 * s.inLen)
    (hr : Table.read s.inMem (p / 8) = some byte) : inputBit s p = .ok (byte.getLsbD (7 - p % 8)) := by
  simp [inputBit, hr, Nat.not_le.2 hp]

theorem spells_fieldBits {src : BitSource} {n pos : Nat} {x : Value}
    (h : ∀ k, k < n → src (pos + k) = .ok (x.getLsbD (n - 1 - k))) : Spells src pos (fieldBits n x) := by
  intro k b hk
  have hlt : k < n := by simpa using (List.getElem?_eq_some_iff.1 hk).1
  rw [fieldBits_getElem hlt, Option.some.injEq] at hk
  rw [h k hlt, hk]

/-- Settles O13: a field whose bits can be read is spelled, and a failing bit ends the read (`readBits_error`). -/
theorem readBitsShiftsIn : Obligations.ReadBitsShiftsIn := by
  refine ⟨fun s p => ⟨inputBit_past, fun byte => inputBit_read⟩, fun src width pos _ => ⟨?field, ?stop, rfl⟩⟩
  case field => exact fun x h => readBits_spelled (spells_fieldBits h)
  case stop => exact fun k e hk hok herr => readBits_error.2 ⟨k, hk, herr, hok⟩

/-! ## Reader and writer -/

theorem byteBits_getElem? (w : Byte) {k : Nat} (hk : k < 8) : (byteBits w)[k]? = some (w.getLsbD (7 - k)) := by
  rw [byteBits, fieldBits_getElem hk, BitVec.zeroExtend_eq_setWidth, BitVec.getLsbD_setWidth]
  simp [show 7 - k < 64 by omega]

/-- Bit `k` of a byte string in stream order is bit `7 - (k mod 8)` of byte `k div 8` (20 R55). -/
theorem flatMap_byteBits_getElem? (l : List Byte) (k : Nat) :
    (l.flatMap byteBits)[k]? = l[k / 8]?.map (fun w => w.getLsbD (7 - k % 8)) := by
  induction l generalizing k with
  | nil => simp
  | cons w l ih =>
    rw [List.flatMap_cons]
    by_cases hk : k < 8
    · rw [List.getElem?_append_left (by simpa using hk), byteBits_getElem? w hk, Nat.div_eq_of_lt hk,
        Nat.mod_eq_of_lt hk]
      rfl
    · obtain ⟨m, rfl⟩ : ∃ m, k = m + 8 := ⟨k - 8, by omega⟩
      rw [List.getElem?_append_right (by simp), byteBits_length, Nat.add_sub_cancel, ih, Nat.add_mod_right,
        Nat.add_div_right m (by decide), List.getElem?_cons_succ]

/-- An input that holds these bytes spells their bits (40 R129). -/
theorem spells_of_holds {d : State} {out : List Byte} (hlen : d.inLen = out.length)
    (hread : ∀ a, Table.read d.inMem a = out[a]?) : Spells (inputBit d) 0 (out.flatMap byteBits) := by
  intro k b hk
  rw [flatMap_byteBits_getElem?] at hk
  obtain ⟨w, hw, rfl⟩ := Option.map_eq_some_iff.1 hk
  have hlt : k / 8 < out.length := (List.getElem?_eq_some_iff.1 hw).1
  rw [Nat.zero_add]
  exact inputBit_read (by omega) ((hread _).trans hw)

/-- Settles O14: the input spells the sequence, then the padding, and so every field within the sequence. -/
theorem readerRecoversTheWriter : Obligations.ReaderRecoversTheWriter := by
  intro bits s d hout hlen hpart hfill t hin hread
  obtain ⟨-, -, -, hbytes, -, hbits⟩ := writerAccounting bits s hout hlen hpart hfill
  have hspell : Spells (inputBit d) 0 (bits ++ List.replicate ((8 - bits.length % 8) % 8) false) :=
    hbits ▸ spells_of_holds hin hread
  obtain ⟨hseq, hpad⟩ := spells_append.1 hspell
  refine ⟨fun k b hk => by simpa using hseq k b hk, fun k hge hlt => ?padding, fun xs ys width x _ hx => ?field⟩
  case padding =>
    have hroom : k - bits.length < (8 - bits.length % 8) % 8 := by rw [hin, hbytes] at hlt; omega
    have hbit := hpad (k - bits.length) false (by simp [hroom])
    rwa [Nat.zero_add, Nat.add_sub_cancel' hge] at hbit
  case field =>
    rw [hx, map_range_field] at hseq
    obtain ⟨-, hfield⟩ := spells_append.1 (spells_append.1 hseq).1
    rw [Nat.zero_add] at hfield
    exact readBits_spelled hfield

end Sys2Proof.Machine


/-!
The zero-run binning classifier (41 R140 to R147) and the distance field (30 R88). The counts are read from bit 0 up, as
the statements do; of the bins all that matters is that `binOf` is the greatest bin at most the count (`binOf_le`,
`le_binOf`).
-/

namespace Sys2Proof.Machine

/-! ## The leading count, read from bit 0 up -/

theorem countLeading_le_of_ne_zero {x : Value} (h : x ≠ 0) : countLeading x ≤ 63 :=
  Nat.le_of_lt_succ (Nat.lt_of_le_of_ne (countLeading_le x) (mt (countLeading_eq_iff x).1 h))

/-- The highest set bit (41 R140). -/
theorem getLsbD_countLeading {x : Value} (h : x ≠ 0) : x.getLsbD (63 - countLeading x) = true := by
  have hset := getMsbD_countLeading h
  rw [BitVec.getMsbD_eq_getLsbD, Bool.and_eq_true] at hset
  exact hset.2

/-- Above the highest set bit every bit is 0 (41 R140). -/
theorem getLsbD_of_countLeading_ge {x : Value} {k : Nat} (h : 64 - countLeading x ≤ k) : x.getLsbD k = false := by
  rw [BitVec.getLsbD_eq_getMsbD]
  by_cases hk : k < 64
  · rw [getMsbD_of_lt_countLeading (by omega), Bool.and_false]
  · rw [decide_eq_false hk, Bool.false_and]

/-- Settles O5: each count has a set bit at its end and none before it. -/
theorem countsAreZeroRuns : Obligations.CountsAreZeroRuns := by
  refine ⟨⟨(countLeading_eq_iff 0).2 rfl, (countTrailing_eq_iff 0).2 rfl⟩, fun x hx => ?nonzero⟩
  case nonzero =>
    exact ⟨countLeading_le_of_ne_zero hx, getLsbD_countLeading hx,
      fun k hk => getLsbD_of_countLeading_ge (by omega), getLsbD_countTrailing hx,
      fun k hk => getLsbD_of_lt_countTrailing hk, countLeading_add_countTrailing hx⟩

/-! ## Rounding down -/

/-- The thresholds are the numbers of the bins (00 R7). -/
theorem mem_thresholds_iff {n : Nat} : n ∈ [0, 8, 12, 16, 18, 20, 22, 24] ↔ ∃ b, binValue b = n := by
  constructor
  · have hbins : ∀ m ∈ [0, 8, 12, 16, 18, 20, 22, 24], binValue (binOf m) = m := by decide
    exact fun hn => ⟨binOf n, hbins n hn⟩
  · rintro ⟨b, rfl⟩
    cases b <;> decide

/-- Settles O6: `binOf` is at most the count, and every threshold at most the count is a bin that `binOf` reaches. -/
theorem binOfIsTheGreatestBinBelow : Obligations.BinOfIsTheGreatestBinBelow := by
  refine fun c _ => ⟨mem_thresholds_iff.2 ⟨binOf c, rfl⟩, binOf_le c, fun t ht hle => ?greatest⟩
  case greatest =>
    obtain ⟨b, rfl⟩ := mem_thresholds_iff.1 ht
    exact le_binOf hle

/-- From 24 on the bin is the last one (41 R142). -/
theorem binValue_binOf_of_ge {c : Nat} (h : 24 ≤ c) : binValue (binOf c) = 24 :=
  Nat.le_antisymm (binValue_le _) (le_binOf (b := .b24) h)

/-- Below 24 the bin is less than 8 under the count (41 R145): the bins 0, 8 and 16 are 8 apart. -/
theorem lt_binValue_binOf_add_eight {c : Nat} (h : c < 24) : c < binValue (binOf c) + 8 := by
  by_cases h16 : 16 ≤ c
  · have : 16 ≤ binValue (binOf c) := le_binOf (b := .b16) h16
    omega
  · by_cases h8 : 8 ≤ c
    · have : 8 ≤ binValue (binOf c) := le_binOf (b := .b8) h8
      omega
    · omega

theorem wastedBits_of_ge {x : Value} (h : 24 ≤ countLeading x) : wastedBits x = countLeading x - 24 := by
  rw [wastedBits, binValue_binOf_of_ge h]

theorem wastedBits_le_of_lt {x : Value} (h : countLeading x < 24) : wastedBits x ≤ 7 := by
  have := lt_binValue_binOf_add_eight h
  rw [wastedBits]
  omega

theorem wastedBits_of_seven {x : Value} (h : countLeading x = 7) : wastedBits x = 7 := by
  rw [wastedBits, h]
  rfl

/-- The most a non-zero word wastes is at its greatest leading count, 63 (41 R145). -/
theorem wastedBits_le_of_ne_zero {x : Value} (h : x ≠ 0) : wastedBits x ≤ 39 := by
  have hc := countLeading_le_of_ne_zero h
  rcases Nat.lt_or_ge (countLeading x) 24 with hlt | hge
  · exact (wastedBits_le_of_lt hlt).trans (by decide)
  · rw [wastedBits_of_ge hge]
    omega

/-- Settles O8: the bin is at most the leading count, so the bits above its field are 0, and the waste follows the two
ranges of the count. -/
theorem binLeavesRoom : Obligations.BinLeavesRoom := by
  intro x c b
  have hb : b ≤ c := binOf_le c
  have hfits : x.toNat < 2 ^ (64 - b) := fits_of_binOf x
  refine ⟨hb, fun k hk => getLsbD_of_countLeading_ge (by omega), hfits, lowBits_of_fits hfits, rfl,
    wastedBits_le_of_lt, wastedBits_of_seven, wastedBits_of_ge, wastedBits_le_of_ne_zero, ?zero⟩
  case zero =>
    rintro rfl
    decide

/-! ## The codes -/

/-- The 7-bit field is the distance modulo 128 (30 R88). -/
theorem distanceField_toNat (d : Nat) : (distanceField d).toNat = d % 128 := by
  rw [distanceField, BitVec.toNat_ofNat]
  exact Nat.mod_mod d 128

/-- The code 0 stands for 128 (30 R88). -/
theorem distanceOf_eq (D : BitVec 7) : distanceOf D = if D.toNat = 0 then 128 else D.toNat := by
  have hzero : D = 0 ↔ D.toNat = 0 := BitVec.toNat_inj.symm
  simp only [distanceOf, hzero]

/-- Settles O7: the inverse laws of the bins, the table of the eight codes, and the distance field. -/
theorem fieldCodesAreInverse : Obligations.FieldCodesAreInverse :=
  ⟨decodeBin_encodeBin, encodeBin_decodeBin, binOf_binValue, by decide,
    fun d h1 h2 => ⟨distanceField_toNat d, distanceOf_distanceField h1 h2⟩, distanceOf_eq⟩

end Sys2Proof.Machine


/-!
The back-reference selector (42 R160 to R167). `select` takes one of three paths, each an equation; the scan is read off
the list of the window's candidates, place `k` of which is the value at distance `k + 1`. What the selector remembers of
the job then says what each path can answer.
-/

namespace Sys2Proof.Machine

/-- Settles O16: a table reads back what was written at its own address only (`Table.read_write`). -/
theorem updateRecordsTheValue : Obligations.UpdateRecordsTheValue := fun v i s =>
  ⟨fun k => Table.read_write s.ring (slotOf i) v k, fun h => Table.read_write s.lut (hashOf v) i h, rfl⟩

/-! ## The three paths of `select` -/

/-- The lookup of `v` names an index at most 128 back of `i` (42 R161). -/
def LookupHits (s : State) (v : Value) (i : Nat) : Prop :=
  ∃ k, Table.read s.lut (hashOf v) = some k ∧ i - k ≤ 128

theorem not_lookupHits_iff {s : State} {v : Value} {i : Nat} :
    ¬ LookupHits s v i ↔ ∀ k, Table.read s.lut (hashOf v) = some k → 128 < i - k := by
  simp only [LookupHits, not_exists, not_and, Nat.not_le]

theorem select_of_lookup {s : State} {v c : Value} {i j : Nat} (he : Table.read s.lut (hashOf v) = some j)
    (hlt : j < i) (hw : i - j ≤ 128) (hr : Table.read s.ring (slotOf j) = some c) :
    select s v i = .ok (j, c) := by
  simp only [select, he, if_neg (Nat.not_le.2 hlt), if_pos hw, ringAt_ok.2 hr]
  rfl

theorem select_of_stale {s : State} {v : Value} {i j : Nat} (he : Table.read s.lut (hashOf v) = some j)
    (hlt : j < i) (hw : 128 < i - j) : select s v i = scan s v i := by
  simp only [select, he, if_neg (Nat.not_le.2 hlt), if_neg (Nat.not_le.2 hw)]

theorem select_of_missing {s : State} {v : Value} (i : Nat) (he : Table.read s.lut (hashOf v) = none) :
    select s v i = scan s v i := by
  simp only [select, he]

/-- Settles O17: the three paths. -/
theorem selectTakesTheLookup : Obligations.SelectTakesTheLookup := fun _ _ i _ =>
  ⟨fun _ _ he hlt hw hr => select_of_lookup he hlt hw hr, fun _ he hlt hw => select_of_stale he hlt hw,
    select_of_missing i⟩

/-- Settles O19: the lookup path checks the bound (`select_ok`), the scan looks no further (`scan_ok`). -/
theorem selectStaysInTheWindow : Obligations.SelectStaysInTheWindow := by
  intro s v i j c hi h
  rcases select_ok h with ⟨-, hlt, hw, -⟩ | ⟨-, hscan⟩
  · omega
  · obtain ⟨d, h1, h2, rfl, -⟩ := scan_ok hscan hi
    omega

/-! ## The scan over the window -/

/-- The candidate the scan takes of those read, by `SCAN_TIE` (42 R162, R163). -/
def scanBest (s : State) (v : Value) (first : Nat × Value) (rest : List (Nat × Value)) : Nat × Value :=
  match s.config.scanTie with
  | .nearest => nearestBest v first rest
  | .any => anyBest v (Config.anyPick s.pick) first rest

/-- The scan reads the candidates at distances 1 to `min(i, 128)` and takes the best (42 R162). -/
theorem scan_of_candidates {s : State} {v : Value} {i : Nat} {first : Nat × Value} {rest : List (Nat × Value)}
    (hi : 1 ≤ i) (h : candidates s.ring i 1 (min i 128) = .ok (first :: rest)) :
    scan s v i = .ok (scanBest s v first rest) := by
  rw [show min i 128 = min i 128 - 1 + 1 by omega, candidates] at h
  obtain ⟨c, hc, h⟩ := bind_ok.1 h
  obtain ⟨cs, hcs, h⟩ := bind_ok.1 h
  cases h
  refine bind_ok.2 ⟨c, hc, bind_ok.2 ⟨rest, hcs, ?_⟩⟩
  unfold scanBest
  cases s.config.scanTie <;> rfl

/-- The candidate taken is one of those read, none is better, and under `NEAREST` those before it are worse (42 R162,
R163). -/
theorem scanBest_spec (s : State) (v : Value) (first : Nat × Value) (rest : List (Nat × Value)) :
    ∃ k : Nat, (first :: rest)[k]? = some (scanBest s v first rest) ∧
      ∀ (e : Nat) c, (first :: rest)[e]? = some c →
        quality v c ≤ quality v (scanBest s v first rest) ∧
        (s.config.scanTie = .nearest → e < k → quality v c < quality v (scanBest s v first rest)) := by
  unfold scanBest
  cases htie : s.config.scanTie with
  | nearest =>
    obtain ⟨k, hk, hbefore⟩ := nearestBest_first v first rest
    exact ⟨k, hk, fun e c he =>
      ⟨quality_le_nearestBest v first rest (List.mem_of_getElem? he), fun _ hlt => hbefore e c hlt he⟩⟩
  | any =>
    obtain ⟨hmem, hq⟩ := anyBest_spec v (Config.anyPick s.pick) first rest
    obtain ⟨k, hk⟩ := List.mem_iff_getElem?.1 hmem
    exact ⟨k, hk, fun e c he =>
      ⟨hq ▸ quality_le_nearestBest v first rest (List.mem_of_getElem? he), nofun⟩⟩

/-- Settles O18: of the candidates read the scan takes the one `scanBest_spec` describes, at distance `k + 1`. -/
theorem scanTakesAMaximiser : Obligations.ScanTakesAMaximiser := by
  intro s v i hi hpop
  obtain ⟨cs, hcs⟩ := candidates_read (ring := s.ring) (i := i) (d := 1) (n := min i 128)
    fun e h1 h2 => hpop e h1 (by omega)
  obtain ⟨hlen, hget⟩ := candidates_get hcs
  cases cs with
  | nil => simp at hlen; omega
  | cons first rest =>
    obtain ⟨k, hk, hbest⟩ := scanBest_spec s v first rest
    have hlt : k < min i 128 := by rw [← hlen]; exact (List.getElem?_eq_some_iff.1 hk).1
    obtain ⟨c, hc, hread⟩ := hget k hlt
    have htaken : scanBest s v first rest = (i - (1 + k), c) := Option.some.inj (hk.symm.trans hc)
    rw [htaken] at hbest
    refine ⟨1 + k, c, by omega, by omega, htaken ▸ scan_of_candidates hi hcs, hread, fun e c' h1 h2 hc' => ?_⟩
    obtain ⟨c'', hc'', hread'⟩ := hget (e - 1) (by omega)
    rw [Nat.add_sub_cancel' h1] at hc'' hread'
    obtain rfl : c'' = c' := Option.some.inj (hread'.symm.trans hc')
    obtain ⟨hle, hnear⟩ := hbest (e - 1) _ hc''
    exact ⟨hle, fun htie hed => hnear htie (by omega)⟩

/-! ## What the selector remembers -/

/-- With every value of the window resident the scan answers one of them (42 R164). -/
theorem Remembers.scan_finds {hist : List Value} {s : State} (h : Remembers hist s) (v : Value)
    (hi : 1 ≤ s.index) : ∃ j c, scan s v s.index = .ok (j, c) ∧ hist[j]? = some c := by
  obtain ⟨d, c, h1, h2, hscan, hread, -⟩ := scanTakesAMaximiser s v s.index hi fun e h1 h2 => by
    obtain ⟨c, -, hread⟩ := h.window h1 h2
    exact Option.isSome_of_eq_some hread
  exact ⟨s.index - d, c, hscan, h.occupant (by omega) (by omega) hread⟩

/-- An entry at most 128 back is a hit on the value of its index, which is resident (20 R71). -/
theorem Remembers.select_hit {hist : List Value} {s : State} (h : Remembers hist s) {v : Value} {k : Nat}
    (he : Table.read s.lut (hashOf v) = some k) (hw : s.index - k ≤ 128) :
    ∃ c, select s v s.index = .ok (k, c) ∧ hist[k]? = some c := by
  have hlt : k < s.index := h.counted ▸ h.entry_lt he
  obtain ⟨c, hc, hread⟩ := h.window (e := s.index - k) (by omega) (by omega)
  rw [Nat.sub_sub_self hlt.le] at hc hread
  exact ⟨c, select_of_lookup he hlt hw hread, hc⟩

/-- Without a hit `select` is the scan (42 R161). -/
theorem Remembers.select_miss {hist : List Value} {s : State} (h : Remembers hist s) {v : Value}
    (hmiss : ¬ LookupHits s v s.index) : select s v s.index = scan s v s.index := by
  cases he : Table.read s.lut (hashOf v) with
  | none => exact select_of_missing _ he
  | some k => exact select_of_stale he (h.counted ▸ h.entry_lt he) (not_lookupHits_iff.1 hmiss k he)

/-- Settles O20: the lookup path when it hits, else the scan. -/
theorem selectAlwaysFinds : Obligations.SelectAlwaysFinds := by
  intro hist s v h hi
  by_cases hhit : LookupHits s v s.index
  · obtain ⟨k, he, hw⟩ := hhit
    exact ⟨k, h.select_hit he hw⟩
  · rw [h.select_miss hhit]
    exact h.scan_finds v hi

/-- A value of the job has an entry under its hash, at its index or a later one (10 R38 (c)). -/
theorem Remembers.entry_of_value {hist : List Value} {s : State} (h : Remembers hist s) {j : Nat} {c : Value}
    (hc : hist[j]? = some c) : ∃ k, Table.read s.lut (hashOf c) = some k ∧ j ≤ k := by
  classical
  have hlt : ∀ {m w}, hist[m]? = some w → m ≤ hist.length := fun hm =>
    (List.getElem?_eq_some_iff.1 hm).1.le
  have hlast := Nat.findGreatest_spec (P := fun m => ∃ w, hist[m]? = some w ∧ hashOf w = hashOf c)
    (hlt hc) ⟨c, hc, rfl⟩
  exact ⟨_, (h.entry _ _).2 ⟨hlast, fun m w hm hh => Nat.le_findGreatest (hlt hm) ⟨w, hm, hh⟩⟩,
    Nat.le_findGreatest (hlt hc) ⟨c, hc, rfl⟩⟩

/-- On a miss no value of the window has the hash looked up: its entry would be a hit (42 R167). -/
theorem Remembers.hash_ne_of_miss {hist : List Value} {s : State} (h : Remembers hist s) {v c : Value} {j : Nat}
    (hmiss : ¬ LookupHits s v s.index) (hc : hist[j]? = some c) (hw : s.index ≤ j + 128) :
    hashOf c ≠ hashOf v := by
  intro hhash
  obtain ⟨k, he, hle⟩ := h.entry_of_value hc
  exact hmiss ⟨k, hhash ▸ he, by omega⟩

/-- A scan that a miss led to answers a value of another hash (42 R167). -/
theorem Remembers.trailing_of_miss {hist : List Value} {s : State} (h : Remembers hist s) {v c : Value} {j : Nat}
    (hi : 1 ≤ s.index) (hmiss : ¬ LookupHits s v s.index) (hsel : select s v s.index = .ok (j, c)) :
    countTrailing (v ^^^ c) ≤ 13 := by
  rw [h.select_miss hmiss] at hsel
  obtain ⟨d, h1, h2, rfl, hread⟩ := scan_ok hsel hi
  exact trailing_of_hash_ne (h.hash_ne_of_miss hmiss (h.occupant (by omega) (by omega) hread) (by omega))

/-- A hit answers a value of the same hash (42 R167). -/
theorem Remembers.hash_eq_of_hit {hist : List Value} {s : State} (h : Remembers hist s) {v c : Value} {j : Nat}
    (hhit : LookupHits s v s.index) (hsel : select s v s.index = .ok (j, c)) : hashOf c = hashOf v := by
  obtain ⟨k, he, hw⟩ := hhit
  obtain ⟨c', hsel', hc'⟩ := h.select_hit he hw
  obtain ⟨⟨w, hw, hhash⟩, -⟩ := (h.entry _ _).1 he
  obtain ⟨rfl, rfl⟩ : j = k ∧ c = c' := by simpa [hsel] using hsel'
  obtain rfl : c = w := Option.some.inj (hc'.symm.trans hw)
  exact hhash

/-- Settles O21: a miss leaves values of other hashes only, a hit takes one of the same hash. -/
theorem scanYieldsAtMost13 : Obligations.ScanYieldsAtMost13 := by
  intro hist s v j c h hi hsel
  refine ⟨fun hstale => ?miss, fun hhit => ?hit⟩
  case miss =>
    have hmiss := not_lookupHits_iff.2 hstale
    refine ⟨fun j' c' hc' hw => ?_, h.trailing_of_miss hi hmiss hsel⟩
    have hne := h.hash_ne_of_miss hmiss hc' hw
    exact ⟨hne, trailing_of_hash_ne hne⟩
  case hit =>
    have heq := h.hash_eq_of_hit hhit hsel
    exact ⟨heq, trailing_of_hash_eq heq⟩

/-! ## The tie-break -/

/-- The same state of a core built otherwise. -/
def State.withConfig (c : Config) (s : State) : State := { s with config := c }

@[simp] theorem State.withConfig_config (c : Config) (s : State) : (s.withConfig c).config = c := rfl
@[simp] theorem State.withConfig_index (c : Config) (s : State) : (s.withConfig c).index = s.index := rfl
@[simp] theorem State.withConfig_pb (c : Config) (s : State) : (s.withConfig c).pb = s.pb := rfl
@[simp] theorem State.withConfig_ring (c : Config) (s : State) : (s.withConfig c).ring = s.ring := rfl

/-- The writer does not look at the build. -/
theorem putBit_withConfig (b : Bool) (c : Config) (s : State) :
    putBit b (s.withConfig c) = (putBit b s).withConfig c := by
  by_cases h : s.wfill.toNat = 7
  · rw [putBit_of_eighth b h, putBit_of_eighth b (s := s.withConfig c) h]
    rfl
  · have hroom : s.wfill.toNat < 7 := by omega
    rw [putBit_of_room b hroom, putBit_of_room b (s := s.withConfig c) hroom]
    rfl

theorem putBits_withConfig (x : Value) (n : Nat) (c : Config) (s : State) :
    putBits x n (s.withConfig c) = (putBits x n s).withConfig c := by
  induction n generalizing s with
  | zero => rfl
  | succ n ih => rw [putBits, putBit_withConfig, ih, putBits]

theorem emit_withConfig (r : Record) (c : Config) (s : State) :
    emit r (s.withConfig c) = (emit r s).withConfig c := by
  cases r <;> simp only [emit, putRawValue, putBit_withConfig, putBits_withConfig, State.withConfig_pb]

/-- A push that answers was rejected for its mode or for a full index, or chose a record (43 R181). `Steps` does not say
which reject it was; the comparison of two builds needs to know. -/
theorem exec_encPush_cases {s t : State} {v : Value} (h : exec (.encPush v) s = .next t) :
    (s.mode ≠ .enc ∧ t = reject .wrongMode s) ∨
    (s.mode = .enc ∧ s.index = 2 ^ s.config.idxW - 1 ∧ t = reject .indexFull s) ∨
    (s.mode = .enc ∧ s.index ≠ 2 ^ s.config.idxW - 1 ∧ ∃ r, chooseRecord s v = .ok r ∧
      t = respondOk (commitPush v r (emit r s)).outLen (commitPush v r (emit r s))) := by
  simp only [exec, execEncPush] at h
  split at h
  case isTrue hm => cases h; exact .inl ⟨hm, rfl⟩
  case isFalse hm =>
    refine .inr ?_
    split at h
    case isTrue hf => cases h; exact .inl ⟨not_not.1 hm, by simpa [indexFull] using hf, rfl⟩
    case isFalse hf =>
      refine .inr ⟨not_not.1 hm, by simpa [indexFull] using hf, ?_⟩
      split at h
      · cases h
      · rename_i r hr
        cases h
        exact ⟨r, hr, rfl⟩

theorem exec_encPush_config {s t : State} {v : Value} (h : exec (.encPush v) s = .next t) :
    t.config = s.config := by
  rcases exec_encPush_cases h with ⟨-, rfl⟩ | ⟨-, -, rfl⟩ | ⟨-, -, r, -, rfl⟩
  · rfl
  · rfl
  · exact (commitPush_pushed v r s).config

/-- A push that chooses the same record does the same under another build with the same `IDX_W`. -/
theorem exec_encPush_withConfig {s t : State} {v : Value} {c : Config} (hidx : c.idxW = s.config.idxW)
    (hchoose : chooseRecord (s.withConfig c) v = chooseRecord s v) (h : exec (.encPush v) s = .next t) :
    exec (.encPush v) (s.withConfig c) = .next (t.withConfig c) := by
  rcases exec_encPush_cases h with ⟨hm, rfl⟩ | ⟨hm, hf, rfl⟩ | ⟨hm, hf, r, hr, rfl⟩
  · exact if_pos hm
  · have hfull : indexFull (s.withConfig c) = true := by simpa [indexFull, hidx] using hf
    exact (if_neg (not_not.2 hm)).trans (if_pos hfull)
  · have hroom : (s.withConfig c).index ≠ 2 ^ (s.withConfig c).config.idxW - 1 := by
      simpa [hidx] using hf
    rw [execEncPush_chosen (s := s.withConfig c) hm hroom (hchoose.trans hr), emit_withConfig]
    rfl

/-- A select that answers the same chooses the same record. -/
theorem chooseRecord_congr {s : State} {v : Value} {c : Config} (hthr : c.brThreshold = s.config.brThreshold)
    (hsel : select (s.withConfig c) v s.index = select s v s.index) :
    chooseRecord (s.withConfig c) v = chooseRecord s v := by
  simp [chooseRecord, hthr, hsel]

/-- On a miss, with a threshold no scan exceeds, the record is the one with the predecessor (42 R167). -/
theorem Remembers.chooseRecord_of_miss {hist : List Value} {s : State} (h : Remembers hist s) {v p : Value}
    (hi : 1 ≤ s.index) (hthr : 13 ≤ s.config.brThreshold.toNat) (hmiss : ¬ LookupHits s v s.index)
    (hp : Table.read s.ring (slotOf (s.index - 1)) = some p) :
    chooseRecord s v = .ok (prevRecord s.pb (v ^^^ p)) := by
  obtain ⟨j, c, hsel, -⟩ := selectAlwaysFinds hist s v h hi
  exact chooseRecord_prev hi hsel ((h.trailing_of_miss hi hmiss hsel).trans hthr) hp

/-- With `BR_THRESHOLD` at least 13 the record does not depend on the tie-break: a hit does not scan, and what a scan
answers is not used (42 R167). -/
theorem Remembers.chooseRecord_withConfig {hist : List Value} {s : State} (h : Remembers hist s) (v : Value)
    {c : Config} (hthr : 13 ≤ s.config.brThreshold.toNat) (hc : c.brThreshold = s.config.brThreshold) :
    chooseRecord (s.withConfig c) v = chooseRecord s v := by
  have h' : Remembers hist (s.withConfig c) := h.congr rfl rfl rfl
  by_cases hi : s.index = 0
  · simp [chooseRecord, hi]
  by_cases hhit : LookupHits s v s.index
  · obtain ⟨k, he, hw⟩ := hhit
    obtain ⟨a, hsel, ha⟩ := h.select_hit he hw
    obtain ⟨b, hsel', hb⟩ := h'.select_hit he hw
    obtain rfl : a = b := Option.some.inj (ha.symm.trans hb)
    exact chooseRecord_congr hc (hsel'.trans hsel.symm)
  · obtain ⟨p, -, hp⟩ := h.window (e := 1) le_rfl (by omega)
    have hi1 : 1 ≤ s.index := Nat.one_le_iff_ne_zero.2 hi
    rw [h.chooseRecord_of_miss hi1 hthr hhit hp]
    exact h'.chooseRecord_of_miss hi1 (hc ▸ hthr) hhit hp

/-- Settles O29: the record is the same whatever the tie-break, and so is the push. -/
theorem scanTieHasNoEffect : Obligations.ScanTieHasNoEffect := by
  intro s t v hinv hthr _ h
  obtain ⟨hist, hrem⟩ := hinv.remembers
  rw [exec_encPush_config h]
  exact exec_encPush_withConfig rfl (hrem.chooseRecord_withConfig v hthr rfl) h

end Sys2Proof.Machine


/-!
The encoder's records are canonical (43 R193). The record of a value is one of five, and each branch of `backRefRecord`
and `prevRecord` says which; the lengths of a BackRefPayload follow from one sum: bin, meaningful length and trailing
count make up the 64 bits of the xor.
-/

namespace Sys2Proof.Machine

/-! ## The four records after the first -/

theorem backRefRecord_zero (d : Nat) : backRefRecord d 0 = .exactMatch (distanceField d) := if_pos rfl

theorem backRefRecord_of_ne_zero (d : Nat) {x : Value} (hx : x ≠ 0) :
    backRefRecord d x = .backRefPayload (distanceField d) (binOf (countLeading x))
      (BitVec.ofNat 6 (64 - binValue (binOf (countLeading x)) - countTrailing x)) (x >>> countTrailing x) :=
  if_neg hx

theorem prevRecord_of_same {pb : Option Bin} {x : Value} (h : pb = some (binOf (countLeading x))) :
    prevRecord pb x = .prevSameBin x := if_pos h

theorem prevRecord_of_new {pb : Option Bin} {x : Value} (h : pb ≠ some (binOf (countLeading x))) :
    prevRecord pb x = .prevNewBin (binOf (countLeading x)) x := if_neg h

/-! ## Their fields -/

/-- Bin, meaningful length and trailing count make up the word, and some meaningful bits remain (43 R185). -/
theorem backRef_fields_sum {x : Value} {len : BitVec 6} (hx : x ≠ 0) (ht : 0 < countTrailing x)
    (hlen : len = BitVec.ofNat 6 (64 - binValue (binOf (countLeading x)) - countTrailing x)) :
    binValue (binOf (countLeading x)) + len.toNat + countTrailing x = 64 ∧ 1 ≤ len.toNat := by
  obtain ⟨hval, hpos⟩ := backRef_len hx ht
  rw [hlen, hval]
  omega

/-- The payload of a BackRefPayload fits the length written with it (43 R185). -/
theorem backRef_payload_fits {x : Value} {len : BitVec 6}
    (hsum : binValue (binOf (countLeading x)) + len.toNat + countTrailing x = 64) :
    (x >>> countTrailing x).toNat < 2 ^ len.toNat := by
  have hfits := shift_fits x (fits_of_binOf x) (t := countTrailing x) (by omega)
  rwa [show 64 - binValue (binOf (countLeading x)) - countTrailing x = len.toNat by omega] at hfits

/-- The distance to the selected value is read back from its field, within 128 and the values seen (42 R166, 30 R88). -/
theorem distanceOf_selected {s : State} {v c : Value} {j : Nat} (hi : 1 ≤ s.index)
    (hsel : select s v s.index = .ok (j, c)) :
    1 ≤ distanceOf (distanceField (s.index - j)) ∧ distanceOf (distanceField (s.index - j)) ≤ 128 ∧
      distanceOf (distanceField (s.index - j)) ≤ s.index := by
  obtain ⟨hpos, hle⟩ := selectStaysInTheWindow s v s.index j c hi hsel
  rw [distanceOf_distanceField hpos hle]
  exact ⟨hpos, hle, Nat.sub_le ..⟩

/-- Settles O28, record by record: the distance is the selector's, the lengths are `backRef_fields_sum`, an xor with the
predecessor fits its bin (`fits_of_binOf`), and its record is the one that `PB` calls for. -/
theorem encoderEmitsCanonicalRecords : Obligations.EncoderEmitsCanonicalRecords := by
  intro s v r h
  rcases chooseRecord_ok h with ⟨h0, rfl⟩ | ⟨hi, j, c, hsel, ⟨ht, rfl⟩ | ⟨-, p, -, rfl⟩⟩
  case inl => exact ⟨rfl, by simp [Record.fitsContext, h0], nofun, nofun, nofun, nofun⟩
  case inr.inl =>
    obtain ⟨hpos, hle, hseen⟩ := distanceOf_selected hi hsel
    by_cases hx : v ^^^ c = 0
    case pos =>
      rw [hx, backRefRecord_zero]
      refine ⟨rfl, by simp [Record.fitsContext, hi, hseen], ?_, nofun, nofun, nofun⟩
      rintro _ ⟨⟩
      exact ⟨hpos, hle⟩
    case neg =>
      rw [backRefRecord_of_ne_zero _ hx]
      generalize hlen : BitVec.ofNat 6 _ = len
      obtain ⟨hsum, hlen1⟩ := backRef_fields_sum hx (by omega) hlen.symm
      refine ⟨decide_eq_true (backRef_payload_fits hsum), ?_, nofun, ?_, nofun, nofun⟩
      · simp only [Record.fitsContext, Bool.and_eq_true, decide_eq_true_eq]
        omega
      · rintro _ _ _ _ ⟨⟩
        exact ⟨hpos, hle, hlen1, shift_odd hx, by omega⟩
  case inr.inr =>
    have hfits : fitsBits (64 - binValue (binOf (countLeading (v ^^^ p)))) (v ^^^ p) = true :=
      decide_eq_true (fits_of_binOf (v ^^^ p))
    by_cases hpb : s.pb = some (binOf (countLeading (v ^^^ p)))
    case pos =>
      rw [prevRecord_of_same hpb]
      refine ⟨rfl, by simp [Record.fitsContext, hpb, hi, hfits], nofun, nofun, ?_, nofun⟩
      rintro _ ⟨⟩
      exact hpb
    case neg =>
      rw [prevRecord_of_new hpb]
      refine ⟨hfits, by simp [Record.fitsContext, hi], nofun, nofun, nofun, ?_⟩
      rintro _ _ ⟨⟩
      exact hpb

end Sys2Proof.Machine


/-!
Records executed by the decoder (44 R212 to R224). A record in its place does one of two things: its value is committed,
or its violation is entered from the state before the command; and nothing but a violation enters `FAULT`.
-/

namespace Sys2Proof.Machine

/-- Fault entry, written out (60 R262): three fields of the old state change. -/
theorem enterFault_eq (c : FaultCode) (s : State) :
    enterFault c s =
      { s with mode := .fault, cause := some c, rsps := s.rsps ++ [responseWord (.fault c) 0] } := rfl

/-! ## What a record in its place does -/

/-- A record that has a value is pulled: it commits the value over its own length and leaves `PB` by its rule
(44 R221). -/
theorem exec_record_pulled {s : State} {r : Record} {v : Value} (hc : CanPull s) (hp : inPlace r s.index = true)
    (hv : recordValue r s = .ok v) :
    ∃ t, exec r.toInstr s = .next t ∧ Pulled v (recordLength s.pb r) s t ∧ t.pb = pbAfter s.pb r :=
  ⟨_, (exec_inPlace hc hp).trans (completeRecord_value hv), commitPull_pulled v r _ s, rfl⟩

/-- A record whose value is a violation enters `FAULT` (44 R224). -/
theorem exec_record_violation {s : State} {r : Record} {c : FaultCode} (hc : CanPull s)
    (hp : inPlace r s.index = true) (hv : recordValue r s = .error (.violation c)) :
    exec r.toInstr s = .next (enterFault c s) :=
  (exec_inPlace hc hp).trans (completeRecord_violation hv)

theorem inPlace_exactMatch {i : Nat} (dist : BitVec 7) (h : 1 ≤ i) : inPlace (.exactMatch dist) i = true :=
  bne_iff_ne.2 (Nat.ne_of_gt h)

/-- Settles O37: the value of an ExactMatch is the one it refers to (44 R216), and that reference is the check of its
distance too (44 R215). -/
theorem exactMatchReturnsTheReference : Obligations.ExactMatchReturnsTheReference := by
  intro s dist hc hi
  have hp := inPlace_exactMatch dist hi
  refine ⟨fun r hd hr => ?reached, fun hd => ?pastIndex0⟩
  case reached => exact exec_record_pulled hc hp (referenced_ok hd hr)
  case pastIndex0 => exact exec_record_violation hc hp (referenced_bad hd)

/-! ## What enters `FAULT` -/

/-- Of everything an instruction can do, only the violation of a pull or of a record brings the core into `FAULT`
(44 R224, 60 R262); a reject and the commands of every mode keep `MODE`, the others write a mode of their own. -/
theorem Steps.entersFault {i : Instr} {s t : State} (h : Steps i s t) (hs : s.mode ≠ .fault) (ht : t.mode = .fault) :
    (i = .decPull ∨ ∃ r, i = Record.toInstr r) ∧ ∃ c, t = enterFault c s := by
  cases h with
  | pullFault c _ => exact ⟨.inl rfl, c, rfl⟩
  | recordFault r c _ => exact ⟨.inr ⟨r, rfl⟩, c, rfl⟩
  | rejected _ _ | nop | readCsr _ _ | decFeed _ _ => exact absurd ht hs
  | encPush r _ _ _ => exact absurd ((emit_same r s).mode.symm.trans ht) hs
  | softReset | encStart | encFinish _ | decStart | decEnd _ | pulled _ _ _ _ _ _ | executed _ _ _ _ _ => nomatch ht

/-- Settles O42: the instruction did one of the things of `Steps`, and those that enter `FAULT` are fault entries. -/
theorem faultEntryIsAtomic : Obligations.FaultEntryIsAtomic := by
  intro i s t hs h ht
  obtain ⟨hi, c, rfl⟩ := (exec_steps h).entersFault hs ht
  exact ⟨hi, c, enterFault_eq c s⟩

end Sys2Proof.Machine

/-!
Lock-step (44 R225, 45 R248): the decoder reads back the record the encoder chose, and the record's value, taken with the
same remembered values, is the value pushed. So a pull of what a push wrote keeps both sides remembering the same.
-/

namespace Sys2Proof.Machine

/-! ## A spelled record is read back, one part of the decode tree at a time -/

theorem decodeVerbatim_spelled {src : BitSource} {pos : Nat} {v : Value} (h : Spells src pos (fieldBits 64 v)) :
    decodeVerbatim src pos = .ok (.verbatim v, pos + 64) := by
  simp only [decodeVerbatim, readBits_spelled h, lowBits_of_fits v.isLt, bind, Except.bind, pure, Except.pure]

theorem decodePrev_spelled_new {src : BitSource} {pb : Option Bin} {pos : Nat} {b : Bin} {x : Value}
    (hx : x.toNat < 2 ^ (64 - binValue b))
    (h : Spells src pos (true :: (fieldBits 3 ((encodeBin b).zeroExtend 64) ++ fieldBits (64 - binValue b) x))) :
    decodePrev src pb pos = .ok (.prevNewBin b x, pos + 4 + (64 - binValue b)) := by
  obtain ⟨hc2, hrest⟩ := spells_cons.1 h
  obtain ⟨hcode, hpayload⟩ := spells_append.1 hrest
  have hbin : decodeBin ((lowBits 3 ((encodeBin b).zeroExtend 64)).truncate 3) = b := by
    rw [truncate_lowBits (by decide), decodeBin_encodeBin]
  rw [fieldBits_length] at hpayload
  simp only [decodePrev, hc2, readBits_spelled hcode, hbin, readBits_spelled hpayload, lowBits_of_fits hx, bind,
    Except.bind, pure, Except.pure, if_true]

theorem decodePrev_spelled_same {src : BitSource} {pos : Nat} {b : Bin} {x : Value}
    (hx : x.toNat < 2 ^ (64 - binValue b)) (h : Spells src pos (false :: fieldBits (64 - binValue b) x)) :
    decodePrev src (some b) pos = .ok (.prevSameBin x, pos + 1 + (64 - binValue b)) := by
  obtain ⟨hc2, hpayload⟩ := spells_cons.1 h
  simp only [decodePrev, hc2, readBits_spelled hpayload, lowBits_of_fits hx, bind, Except.bind, pure, Except.pure,
    Bool.false_eq_true, if_false]

theorem decodeBackRefPayload_spelled {src : BitSource} {dist : BitVec 7} {pos : Nat} {b : Bin} {len : BitVec 6}
    {p : Value} (hfit : binValue b + len.toNat ≤ 64) (hp : p.toNat < 2 ^ len.toNat)
    (h : Spells src pos (fieldBits 3 ((encodeBin b).zeroExtend 64) ++ (fieldBits 6 (len.zeroExtend 64) ++
      fieldBits len.toNat p))) :
    decodeBackRefPayload src dist pos = .ok (.backRefPayload dist b len p, pos + 9 + len.toNat) := by
  obtain ⟨hcode, hrest⟩ := spells_append.1 h
  obtain ⟨hlen, hpayload⟩ := spells_append.1 hrest
  have hbin : decodeBin ((lowBits 3 ((encodeBin b).zeroExtend 64)).truncate 3) = b := by
    rw [truncate_lowBits (by decide), decodeBin_encodeBin]
  rw [fieldBits_length] at hlen hpayload
  rw [fieldBits_length] at hpayload
  simp only [decodeBackRefPayload, readBits_spelled hcode, readBits_spelled hlen, hbin, lowBits_len,
    if_neg (Nat.not_lt.2 hfit), readBits_spelled hpayload, lowBits_of_fits hp,
    truncate_lowBits (by decide : 6 ≤ 64), bind, Except.bind, pure, Except.pure]

/-- The back-reference branch after its distance, which is within the values seen (44 R215). -/
theorem decodeBackRef_spelled {src : BitSource} {index pos : Nat} {dist : BitVec 7} {c2 : Bool} {bits : List Bool}
    (hd : distanceOf dist ≤ index) (h : Spells src pos (fieldBits 7 (dist.zeroExtend 64) ++ c2 :: bits)) :
    decodeBackRef src index pos =
        (if c2 then decodeBackRefPayload src dist (pos + 8) else .ok (.exactMatch dist, pos + 8)) ∧
      Spells src (pos + 8) bits := by
  obtain ⟨hdist, hrest⟩ := spells_append.1 h
  obtain ⟨hc2, hbits⟩ := spells_cons.1 hrest
  rw [fieldBits_length] at hc2 hbits
  refine ⟨?_, hbits⟩
  simp only [decodeBackRef, readBits_spelled hdist, truncate_lowBits (by decide : 7 ≤ 64),
    if_neg (Nat.not_lt.2 hd), hc2, bind, Except.bind, pure, Except.pure]

/-- After the first value the first control bit selects the branch (30 R87). -/
theorem decodeRecord_spelled_branch {src : BitSource} {index pos : Nat} {pb : Option Bin} {c1 : Bool}
    {bits : List Bool} (hi : 1 ≤ index) (h : Spells src pos (c1 :: bits)) :
    decodeRecord src index pb pos =
        (if c1 then decodePrev src pb (pos + 1) else decodeBackRef src index (pos + 1)) ∧
      Spells src (pos + 1) bits := by
  obtain ⟨hc1, hbits⟩ := spells_cons.1 h
  exact ⟨by simp only [decodeRecord, if_neg (Nat.ne_of_gt hi), hc1, bind, Except.bind], hbits⟩

/-- The bits of a well-formed record that fits its context are read as that record (30 R82 to R86, 44 R213 to R220). -/
theorem decodeRecord_spelled {src : BitSource} {index pos : Nat} {pb : Option Bin} {r : Record} (hwf : r.wf = true)
    (hctx : r.fitsContext index pb = true) (h : Spells src pos (encodeRecord pb r)) :
    decodeRecord src index pb pos = .ok (r, pos + recordLength pb r) := by
  cases r with
  | verbatim v =>
    rw [decodeRecord, if_pos (by simpa [Record.fitsContext] using hctx)]
    exact decodeVerbatim_spelled h
  | exactMatch d =>
    simp only [Record.fitsContext, Bool.and_eq_true, decide_eq_true_eq] at hctx
    obtain ⟨hi, hd⟩ := hctx
    obtain ⟨hbranch, hrest⟩ := decodeRecord_spelled_branch (pb := pb) hi h
    rw [hbranch, if_neg Bool.false_ne_true, (decodeBackRef_spelled hd hrest).1]
    rfl
  | backRefPayload d b len p =>
    simp only [Record.fitsContext, Bool.and_eq_true, decide_eq_true_eq] at hctx
    obtain ⟨⟨hi, hd⟩, hfit⟩ := hctx
    simp only [encodeRecord, List.append_assoc, List.singleton_append] at h
    obtain ⟨hbranch, hrest⟩ := decodeRecord_spelled_branch (pb := pb) hi h
    obtain ⟨hdist, hfields⟩ := decodeBackRef_spelled hd hrest
    rw [hbranch, if_neg Bool.false_ne_true, hdist, if_pos rfl,
      decodeBackRefPayload_spelled hfit (of_decide_eq_true hwf) hfields]
    simp [recordLength, Nat.add_assoc]
  | prevSameBin x =>
    cases pb with
    | none => simp [Record.fitsContext] at hctx
    | some b =>
      simp only [Record.fitsContext, fitsBits, Bool.and_eq_true, decide_eq_true_eq] at hctx
      obtain ⟨hi, hx⟩ := hctx
      obtain ⟨hbranch, hrest⟩ := decodeRecord_spelled_branch (pb := some b) hi h
      rw [hbranch, if_pos rfl, decodePrev_spelled_same hx hrest]
      simp [recordLength, sameBinWidth, Nat.add_assoc]
  | prevNewBin b x =>
    obtain ⟨hbranch, hrest⟩ := decodeRecord_spelled_branch (pb := pb) (by simpa [Record.fitsContext] using hctx) h
    rw [hbranch, if_pos rfl, decodePrev_spelled_new (of_decide_eq_true hwf) hrest]
    simp [recordLength, Nat.add_assoc]

/-! ## The value of the record the encoder chose -/

/-- Undoing the xor with a reference (30 R91). -/
theorem xor_xor_reference (v c : Value) : c ^^^ (v ^^^ c) = v := by
  rw [BitVec.xor_comm v c, ← BitVec.xor_assoc, BitVec.xor_self, BitVec.zero_xor]

/-- The payload of a BackRefPayload stands for the xor it was made from (30 R91, 43 R185). -/
theorem payloadXor_backRef {x : Value} {len : BitVec 6}
    (hsum : binValue (binOf (countLeading x)) + len.toNat + countTrailing x = 64) :
    payloadXor (binOf (countLeading x)) len (x >>> countTrailing x) = x := by
  rw [payloadXor, lowBits_of_fits (backRef_payload_fits hsum),
    show 64 - binValue (binOf (countLeading x)) - len.toNat = countTrailing x by omega,
    shiftRight_shiftLeft_countTrailing x le_rfl]

/-- At the distance the encoder writes, the decoder finds the value the selector answered. -/
theorem Remembers.referenced_selected {hist : List Value} {e d : State} {v c : Value} {j : Nat}
    (he : Remembers hist e) (hd : Remembers hist d) (hi : 1 ≤ e.index) (hsel : select e v e.index = .ok (j, c)) :
    referenced (distanceField (e.index - j)) d = .ok c := by
  obtain ⟨hpos, hle⟩ := selectStaysInTheWindow e v e.index j c hi hsel
  obtain ⟨j', c', hsel', hc⟩ := selectAlwaysFinds hist e v he hi
  obtain ⟨rfl, rfl⟩ : j' = j ∧ c' = c := by simpa [hsel] using hsel'.symm
  have hindex : d.index = e.index := hd.counted.trans he.counted.symm
  have hcount := he.counted
  have hdist := distanceOf_distanceField hpos hle
  refine referenced_ok (by omega) ?_
  rw [hdist, hindex, show e.index - (e.index - j') = j' by omega]
  exact hd.read_slot hc (by omega)

/-- Both sides have the same predecessor. -/
theorem Remembers.predecessor_same {hist : List Value} {e d : State} {p : Value} (he : Remembers hist e)
    (hd : Remembers hist d) (hi : 1 ≤ e.index) (hp : Table.read e.ring (slotOf (e.index - 1)) = some p) :
    predecessor d = .ok p := by
  have hcount := he.counted
  have hindex : d.index = e.index := hd.counted.trans hcount.symm
  refine predecessor_ok ?_
  rw [hindex]
  exact hd.read_slot (he.occupant (by omega) (by omega) hp) (by omega)

/-- A back-reference record stands for the value it was made from, where its distance finds the selected value. -/
theorem recordValue_backRefRecord {d : State} {v c : Value} {dist : Nat}
    (href : referenced (distanceField dist) d = .ok c) (ht : 0 < countTrailing (v ^^^ c)) :
    recordValue (backRefRecord dist (v ^^^ c)) d = .ok v := by
  by_cases hx : v ^^^ c = 0
  case pos =>
    obtain rfl : v = c := BitVec.xor_eq_zero_iff.1 hx
    rw [hx, backRefRecord_zero]
    exact href
  case neg =>
    rw [backRefRecord_of_ne_zero _ hx]
    generalize hlen : BitVec.ofNat 6 _ = len
    obtain ⟨hsum, -⟩ := backRef_fields_sum hx ht hlen.symm
    simp only [recordValue, backRefValue, href]
    rw [if_neg (by omega), payloadXor_backRef hsum, xor_xor_reference]

/-- A previous-value record stands for the value it was made from, where the predecessor and `PB` are the same. -/
theorem recordValue_prevRecord {d : State} {v p : Value} (hpred : predecessor d = .ok p) :
    recordValue (prevRecord d.pb (v ^^^ p)) d = .ok v := by
  by_cases hpb : d.pb = some (binOf (countLeading (v ^^^ p)))
  case pos =>
    rw [prevRecord_of_same hpb]
    simp only [recordValue, prevSameValue, hpred, hpb, lowBits_of_fits (fits_of_binOf (v ^^^ p)), xor_xor_reference]
  case neg =>
    rw [prevRecord_of_new hpb]
    simp only [recordValue, prevNewValue, hpred, lowBits_of_fits (fits_of_binOf (v ^^^ p)), xor_xor_reference]

/-- The record the encoder chose stands, for a decoder that remembers the same, for the value pushed (45 R248). -/
theorem Remembers.recordValue_chosen {hist : List Value} {e d : State} {v : Value} {r : Record}
    (he : Remembers hist e) (hd : Remembers hist d) (hpb : e.pb = d.pb) (hr : chooseRecord e v = .ok r) :
    recordValue r d = .ok v := by
  rcases chooseRecord_ok hr with ⟨-, rfl⟩ | ⟨hi, j, c, hsel, ⟨ht, rfl⟩ | ⟨-, p, hp, rfl⟩⟩
  · rfl
  · exact recordValue_backRefRecord (he.referenced_selected hd hi hsel) (by omega)
  · rw [hpb]
    exact recordValue_prevRecord (he.predecessor_same hd hi hp)

/-! ## A pull of what a push wrote -/

/-- Where the input spells the chosen record, the pull reads it and commits the value pushed. -/
theorem Remembers.pull_chosen {hist : List Value} {e d : State} {v : Value} {r : Record} (he : Remembers hist e)
    (hd : Remembers hist d) (hpb : e.pb = d.pb) (hc : CanPull d) (hr : chooseRecord e v = .ok r)
    (hspell : Spells (inputBit d) d.rdPos.toNat (encodeRecord e.pb r)) :
    exec .decPull d = .next (respondOk v (commitPull v r (d.rdPos.toNat + (encodeRecord e.pb r).length) d)) := by
  obtain ⟨hwf, hctx, -⟩ := encoderEmitsCanonicalRecords e v r hr
  have hindex : e.index = d.index := he.counted.trans hd.counted.symm
  rw [hpb] at hspell hctx ⊢
  have hfetch : fetchRecord d = .ok (r, d.rdPos.toNat + (encodeRecord d.pb r).length) := by
    rw [encodeRecord_length]
    exact decodeRecord_spelled hwf (hindex ▸ hctx) hspell
  rw [execDecPull_fetched hc hfetch, completeRecord_value (he.recordValue_chosen hd hpb hr)]

/-- A push that is accepted commits the record it chose (43 R181); `exec_encPush_cases` without its rejects. -/
theorem exec_encPush_accepted {s t : State} {v : Value} (hm : s.mode = .enc)
    (hf : s.index ≠ 2 ^ s.config.idxW - 1) (h : exec (.encPush v) s = .next t) :
    ∃ r, chooseRecord s v = .ok r ∧
      t = respondOk (commitPush v r (emit r s)).outLen (commitPush v r (emit r s)) := by
  rcases exec_encPush_cases h with ⟨hm', -⟩ | ⟨-, hf', -⟩ | ⟨-, -, hr⟩
  · exact absurd hm hm'
  · exact absurd hf' hf
  · exact hr

/-- Settles O44: the bits are those of the chosen record, which the decoder reads back and executes to the value pushed. -/
theorem decoderKeepsLockStep : Obligations.DecoderKeepsLockStep := by
  intro hist e d e' v bits he hd hpb hm hf hc hpush hbits hspell
  obtain ⟨r, hr, rfl⟩ := exec_encPush_accepted hm hf hpush
  rw [commitPush_bits] at hbits
  obtain rfl := List.append_cancel_left hbits
  refine ⟨_, he.pull_chosen hd hpb hc hr hspell, commitPull_pulled v r _ d, ?samePb,
    commitPush_remembers _ he, hd.commit v rfl rfl rfl⟩
  case samePb => simp [hpb, (emit_same r e).pb]

end Sys2Proof.Machine

/-!
Whole jobs (45 R246 to R248). An encode job and a decode job are each followed by the values they have seen so far
(`EncodeSeen`, `DecodeSeen`); one push and one pull move both on by one value, and the job is an induction over the values.
-/

namespace Sys2Proof.Machine

/-! ## The encode job -/

/-- An encode job that has seen the values `hist`. -/
structure EncodeSeen (hist : List Value) (s : State) : Prop where
  remembers : Remembers hist s
  mode : s.mode = .enc
  writer : WriterOk s

/-- The state that ENC_START leaves (43 R180). -/
def encStarted (s : State) : State := respondOk 0 { clearJob s with mode := .enc, remaining := 0 }

theorem exec_encStart (s : State) : exec .encStart s = .next (encStarted s) := rfl

@[simp] theorem encStarted_config (s : State) : (encStarted s).config = s.config := rfl

theorem encStarted_seen (s : State) : EncodeSeen [] (encStarted s) :=
  ⟨.empty rfl rfl rfl, rfl, writerOk_of_empty rfl rfl rfl⟩

theorem encStarted_bits (s : State) : bitsWritten (encStarted s) = [] := bitsWritten_of_empty rfl rfl

/-- The selector answers and every slot of the window is populated, so a record is chosen (43 R192). -/
theorem Remembers.chooseRecord_total {hist : List Value} {s : State} (h : Remembers hist s) (v : Value) :
    ∃ r, chooseRecord s v = .ok r := by
  by_cases h0 : s.index = 0
  · exact ⟨_, if_pos h0⟩
  · have hi : 1 ≤ s.index := Nat.one_le_iff_ne_zero.2 h0
    obtain ⟨j, c, hsel, -⟩ := selectAlwaysFinds hist s v h hi
    by_cases ht : s.config.brThreshold.toNat < countTrailing (v ^^^ c)
    · exact ⟨_, chooseRecord_backRef hi hsel ht⟩
    · obtain ⟨p, -, hp⟩ := h.window (e := 1) le_rfl (by omega)
      exact ⟨_, chooseRecord_prev hi hsel (by omega) hp⟩

/-- While values of a job that `IDX_W` admits are left, `INDEX` is not at its last value (92 D18). -/
theorem Remembers.index_ne_last {hist : List Value} {s : State} (h : Remembers hist s) {n : Nat}
    (hroom : hist.length + (n + 1) < 2 ^ s.config.idxW) : s.index ≠ 2 ^ s.config.idxW - 1 := by
  rw [h.counted]
  omega

/-- A push in an encode job with room goes on (43 R192). -/
theorem EncodeSeen.push {hist : List Value} {s : State} (h : EncodeSeen hist s) (v : Value)
    (hf : s.index ≠ 2 ^ s.config.idxW - 1) :
    ∃ t bits, exec (.encPush v) s = .next t ∧ EncodeSeen (hist ++ [v]) t ∧ t.config = s.config ∧
      bitsWritten t = bitsWritten s ++ bits := by
  obtain ⟨r, hr⟩ := h.remembers.chooseRecord_total v
  have hpushed := commitPush_pushed v r s
  exact ⟨_, _, execEncPush_chosen h.mode hf hr,
    ⟨commitPush_remembers _ h.remembers, hpushed.mode.trans h.mode, hpushed.writer h.writer⟩, hpushed.config,
    commitPush_bits v r s _⟩

/-- All values of a job that `IDX_W` admits are pushed (43 R192). -/
theorem EncodeSeen.pushes {hist : List Value} {s : State} (h : EncodeSeen hist s) (values : List Value)
    (hroom : hist.length + values.length < 2 ^ s.config.idxW) :
    ∃ m bits, runCommands (values.map .encPush) s = .next m ∧ EncodeSeen (hist ++ values) m ∧
      bitsWritten m = bitsWritten s ++ bits := by
  induction values generalizing hist s with
  | nil => exact ⟨s, [], rfl, by simpa using h, by simp⟩
  | cons v values ih =>
    obtain ⟨t, bits, hpush, ht, hconfig, hbits⟩ := h.push v (h.remembers.index_ne_last hroom)
    obtain ⟨m, rest, hrun, hm, hrest⟩ := ih ht (by rw [hconfig]; simp at hroom ⊢; omega)
    refine ⟨m, bits ++ rest, ?_, by simpa using hm, by rw [hrest, hbits, List.append_assoc]⟩
    rw [List.map_cons, runCommands_cons, hpush, andThen_next, hrun]

/-- ENC_FINISH flushes and closes the job (43 R191). -/
theorem exec_encFinish_of_enc {s : State} (h : s.mode = .enc) :
    exec .encFinish s = .next (respondOk (finish s).outLen { finish s with mode := .idle }) :=
  if_neg (not_not.2 h)

/-! ## How a decode job begins -/

/-- The input of `s` holds the bytes `fed` (20 R52). -/
structure Holds (fed : List Byte) (s : State) : Prop where
  length : s.inLen = fed.length
  read : ∀ a, Table.read s.inMem a = fed[a]?

theorem Holds.feed {fed : List Byte} {s : State} (h : Holds fed s) (b : Byte) :
    Holds (fed ++ [b]) (feedByte b s) := by
  refine ⟨by simp [h.length], fun a => ?_⟩
  rw [feedByte_inMem, Table.read_write, h.read, h.length, List.getElem?_append]
  split_ifs with heq hlt
  · omega
  · simp [heq]
  · rfl
  · rw [List.getElem?_eq_none (by omega), List.getElem?_eq_none (by simp; omega)]

/-- The answers to feeding `n` bytes after the first `k` (44 R211). -/
def feedAnswers (k n : Nat) : List ResponseWord :=
  (List.range' k n).map fun i => responseWord .ok (BitVec.ofNat 64 (i + 1))

/-- What feeding the bytes of a decode job leaves: the bytes held, the answers, and the rest as it was. -/
structure Fed (held : List Byte) (answers : List ResponseWord) (s t : State) : Prop where
  holds : Holds held t
  frame : t = { s with inMem := t.inMem, inLen := t.inLen, rsps := s.rsps ++ answers }

section
variable {held : List Byte} {answers : List ResponseWord} {s t : State}

theorem Fed.mode (h : Fed held answers s t) : t.mode = s.mode := by rw [h.frame]
theorem Fed.index (h : Fed held answers s t) : t.index = s.index := by rw [h.frame]
theorem Fed.remaining (h : Fed held answers s t) : t.remaining = s.remaining := by rw [h.frame]
theorem Fed.pb (h : Fed held answers s t) : t.pb = s.pb := by rw [h.frame]
theorem Fed.rdPos (h : Fed held answers s t) : t.rdPos = s.rdPos := by rw [h.frame]
theorem Fed.ring (h : Fed held answers s t) : t.ring = s.ring := by rw [h.frame]
theorem Fed.lut (h : Fed held answers s t) : t.lut = s.lut := by rw [h.frame]
theorem Fed.config (h : Fed held answers s t) : t.config = s.config := by rw [h.frame]
theorem Fed.rsps (h : Fed held answers s t) : t.rsps = s.rsps ++ answers := by rw [h.frame]

end

/-- DEC_FEED with room left in `IN` (44 R211). -/
theorem exec_decFeed_of_room {s : State} (b : Byte) (hm : s.mode = .decLoad) (hc : s.inLen ≠ s.config.inCap) :
    exec (.decFeed b) s = .next (respondOk (BitVec.ofNat 64 (s.inLen + 1)) (feedByte b s)) :=
  (if_neg (not_not.2 hm)).trans (if_neg hc)

/-- Bytes that fit `IN_CAP` are all fed. -/
theorem Holds.feeds {fed : List Byte} {s : State} (h : Holds fed s) (bytes : List Byte) (hm : s.mode = .decLoad)
    (hcap : fed.length + bytes.length ≤ s.config.inCap) :
    ∃ t, runCommands (bytes.map .decFeed) s = .next t ∧
      Fed (fed ++ bytes) (feedAnswers fed.length bytes.length) s t := by
  induction bytes generalizing fed s with
  | nil => exact ⟨s, rfl, by simpa using h, by simp [feedAnswers]⟩
  | cons b bytes ih =>
    have hroom : s.inLen ≠ s.config.inCap := by rw [h.length]; simp at hcap; omega
    obtain ⟨t, hrun, hholds, hframe⟩ :=
      ih (s := respondOk (BitVec.ofNat 64 (s.inLen + 1)) (feedByte b s)) ⟨(h.feed b).length, (h.feed b).read⟩ hm
        (by simpa [Nat.add_assoc, Nat.add_comm 1] using hcap)
    refine ⟨t, ?_, by simpa using hholds, ?_⟩
    · rw [List.map_cons, runCommands_cons, exec_decFeed_of_room b hm hroom, andThen_next, hrun]
    · rw [hframe]
      simp [feedAnswers, List.range'_succ, h.length, respond, feedByte]

/-- The state that DEC_START leaves (44 R210). -/
def decStarted (count : BitVec 64) (s : State) : State :=
  respondOk 0 { clearJob s with mode := .decLoad, remaining := count }

@[simp] theorem decStarted_config (count : BitVec 64) (s : State) : (decStarted count s).config = s.config := rfl

theorem decStarted_holds (count : BitVec 64) (s : State) : Holds [] (decStarted count s) :=
  ⟨rfl, fun _ => rfl⟩

/-- DECODE of bytes that fit `IN_CAP` comes to its pulls with the bytes loaded (45 R247). -/
theorem loadJob_loads (bytes : List Byte) (count : BitVec 64) (s : State) (hcap : bytes.length ≤ s.config.inCap) :
    ∃ t, runCommands (loadJob bytes count) s = .next t ∧
      Fed bytes (feedAnswers 0 bytes.length) (decStarted count s) t :=
  (decStarted_holds count s).feeds bytes rfl (by simpa using hcap)

/-! ## The pulls of a decode job -/

/-- A decode job that has seen the values `hist` and has `left` more to pull. -/
structure DecodeSeen (hist : List Value) (left : Nat) (s : State) : Prop where
  remembers : Remembers hist s
  mode : s.mode = .decLoad ∨ s.mode = .decRun
  remaining : s.remaining.toNat = left
  input : 8 * s.inLen < 2 ^ 64

/-- A loaded job has seen nothing and has its whole count left. -/
theorem Fed.decodeSeen {held : List Byte} {answers : List ResponseWord} {count : BitVec 64} {s t : State}
    (h : Fed held answers (decStarted count s) t) (hin : 8 * held.length < 2 ^ 64) :
    DecodeSeen [] count.toNat t :=
  ⟨.empty h.index h.ring h.lut, .inl h.mode, congrArg BitVec.toNat h.remaining, by rw [h.holds.length]; exact hin⟩

theorem DecodeSeen.canPull {hist : List Value} {n : Nat} {s : State} (h : DecodeSeen hist (n + 1) s)
    (hf : s.index ≠ 2 ^ s.config.idxW - 1) : CanPull s := by
  refine ⟨h.mode, fun h0 => ?_, hf⟩
  have hleft := h.remaining
  rw [h0] at hleft
  simp at hleft

/-- A pulled value is one more seen and one fewer left. -/
theorem DecodeSeen.pulled {hist : List Value} {n len : Nat} {s t : State} {v : Value}
    (h : DecodeSeen hist (n + 1) s) (hp : Pulled v len s t) (hr : Remembers (hist ++ [v]) t) :
    DecodeSeen (hist ++ [v]) n t := by
  refine ⟨hr, .inr hp.mode, ?_, by rw [hp.inLen]; exact h.input⟩
  have hleft := h.remaining
  rw [hp.remaining, BitVec.toNat_sub_of_le (by simp [BitVec.le_def]; omega), hleft]
  rfl

/-- The position after a record that lies in the input is not cut to 64 bits (log 5). -/
theorem Pulled.rdPos_toNat {v : Value} {s t : State} {bits : List Bool} (h : Pulled v bits.length s t)
    (hin : 8 * s.inLen < 2 ^ 64) (hspell : Spells (inputBit s) s.rdPos.toNat bits) :
    t.rdPos.toNat = s.rdPos.toNat + bits.length := by
  rw [h.rdPos, BitVec.toNat_ofNat, Nat.mod_eq_of_lt]
  by_cases hn : bits = []
  · simpa [hn] using s.rdPos.isLt
  · exact (spells_le_input hspell hn).trans_lt hin

theorem runPulls_zero_of_decoding {s : State} (h : s.mode = .decLoad ∨ s.mode = .decRun) :
    runPulls 0 s = .next (respondOk s.rdPos { s with mode := .idle }) :=
  if_neg fun ⟨hload, hrun⟩ => h.elim hload hrun

/-- The pulls of what the pushes wrote answer the values pushed, and DEC_END the position after their bits: lock-step
(`decoderKeepsLockStep`) at every value. -/
theorem DecodeSeen.pulls {hist : List Value} {e d m : State} {values : List Value} {bits : List Bool}
    (he : EncodeSeen hist e) (hd : DecodeSeen hist values.length d) (hpb : e.pb = d.pb)
    (hidx : e.config.idxW = d.config.idxW) (hroom : hist.length + values.length < 2 ^ e.config.idxW)
    (hrun : runCommands (values.map .encPush) e = .next m) (hbits : bitsWritten m = bitsWritten e ++ bits)
    (hspell : Spells (inputBit d) d.rdPos.toNat bits) :
    ∃ u, runPulls values.length d = .next u ∧ u.rsps = d.rsps ++ values.map (responseWord .ok) ++
      [responseWord .ok (BitVec.ofNat 64 (d.rdPos.toNat + bits.length))] := by
  induction values generalizing hist e d bits with
  | nil =>
    cases hrun
    obtain rfl : bits = [] := by simpa using hbits
    exact ⟨_, runPulls_zero_of_decoding hd.mode, by simp⟩
  | cons v values ih =>
    obtain ⟨e', bits₁, hpush, he', hconfig, hbits₁⟩ := he.push v (he.remembers.index_ne_last hroom)
    rw [List.map_cons, runCommands_cons, hpush, andThen_next] at hrun
    have hroom' : (hist ++ [v]).length + values.length < 2 ^ e'.config.idxW := by
      rw [hconfig]; simp at hroom ⊢; omega
    obtain ⟨m', bits₂, hrun', -, hbits₂⟩ := he'.pushes values hroom'
    obtain rfl : m' = m := by simpa [hrun] using hrun'.symm
    obtain rfl : bits = bits₁ ++ bits₂ := by simpa [hbits₂, hbits₁] using hbits.symm
    obtain ⟨hspell₁, hspell₂⟩ := spells_append.1 hspell
    have hcan := hd.canPull (hd.remembers.index_ne_last (hidx ▸ hroom))
    obtain ⟨d', hpull, hpulled, hpb', -, hrem'⟩ := decoderKeepsLockStep hist e d e' v bits₁
      he.remembers hd.remembers hpb he.mode (he.remembers.index_ne_last hroom) hcan hpush hbits₁ hspell₁
    have hpos := hpulled.rdPos_toNat hd.input hspell₁
    obtain ⟨u, hu, hrsps⟩ := ih he' (hd.pulled hpulled hrem') hpb'.symm
      (by rw [hconfig, hpulled.config, hidx]) hroom' hrun hbits₂
      (by rw [hpos, inputBit_congr hpulled.inLen hpulled.inMem]; exact hspell₂)
    refine ⟨u, ?_, ?_⟩
    · rw [List.length_cons, runPulls_succ_of_pulled _ hpull (by simp [hpulled.mode]), hu]
    · rw [hrsps, hpulled.answer, hpos]
      simp [Nat.add_assoc]

/-! ## The round trip -/

/-- The bytes an encode job ends with spell, in an input that holds them, the bits it wrote (40 R129). -/
theorem EncodeSeen.spells_finished {hist : List Value} {m d : State} (hm : EncodeSeen hist m)
    (h : Holds (finish m).out d) : Spells (inputBit d) 0 (bitsWritten m) := by
  have hspell := spells_of_holds h.length h.read
  rw [finish_out_bits hm.writer rfl] at hspell
  exact (spells_append.1 hspell).1

/-- The encode job of values that `IDX_W` admits, up to its last push and to its end. -/
theorem encodeJob_runs (s : State) (values : List Value) (hroom : values.length < 2 ^ s.config.idxW) :
    ∃ m, EncodeSeen values m ∧ runCommands (values.map .encPush) (encStarted s) = .next m ∧
      runCommands ([.encStart] ++ values.map .encPush) s = .next m ∧
      runCommands (encodeJob values) s =
        .next (respondOk (finish m).outLen { finish m with mode := .idle }) := by
  obtain ⟨m, -, hrun, hm, -⟩ := (encStarted_seen s).pushes values (by simpa using hroom)
  have hpushes : runCommands ([.encStart] ++ values.map .encPush) s = .next m := hrun
  refine ⟨m, by simpa using hm, hrun, hpushes, ?_⟩
  rw [encodeJob, runCommands_append _ hpushes, runCommands_cons, exec_encFinish_of_enc hm.mode, andThen_next,
    runCommands_nil]

/-- DECODE of the bytes of an encode job answers its values and the number of its bits (45 R248). -/
theorem runDecode_of_encoded {s d m : State} {values : List Value} (hd : d.config.wf)
    (hidx : s.config.idxW = d.config.idxW) (hroom : values.length < 2 ^ s.config.idxW)
    (hm : EncodeSeen values m) (hrun : runCommands (values.map .encPush) (encStarted s) = .next m)
    (hcap : (finish m).out.length ≤ d.config.inCap) :
    ∃ u, runDecode (finish m).out (BitVec.ofNat 64 values.length) d = .next u ∧
      u.rsps = d.rsps ++ [responseWord .ok 0] ++ feedAnswers 0 (finish m).out.length ++
        values.map (responseWord .ok) ++ [responseWord .ok (BitVec.ofNat 64 (bitsWritten m).length)] := by
  obtain ⟨-, hidx64, -, hin64⟩ := hd
  obtain ⟨t, hload, hfed⟩ := loadJob_loads (finish m).out (BitVec.ofNat 64 values.length) d hcap
  have hcount : (BitVec.ofNat 64 values.length).toNat = values.length :=
    Nat.mod_eq_of_lt (hroom.trans_le (Nat.pow_le_pow_right (by decide) (hidx ▸ hidx64)))
  have hseen : DecodeSeen [] values.length t := hcount ▸ hfed.decodeSeen (by omega)
  have hpos : t.rdPos.toNat = 0 := congrArg BitVec.toNat hfed.rdPos
  obtain ⟨u, hu, hrsps⟩ := DecodeSeen.pulls (bits := bitsWritten m) (encStarted_seen s) hseen hfed.pb.symm
    (by rw [hfed.config]; exact hidx) (by simpa using hroom) hrun
    (by rw [encStarted_bits, List.nil_append]) (by rw [hpos]; exact hm.spells_finished hfed.holds)
  refine ⟨u, ?_, ?_⟩
  · rw [runDecode, hload, andThen_next, hcount, hu]
  · rw [hrsps, hpos, hfed.rsps, Nat.zero_add]
    rfl

/-! ## The full count or the first fault -/

/-- In `FAULT` a pull is rejected (60 R270). -/
theorem exec_decPull_of_fault {s : State} (h : s.mode = .fault) : exec .decPull s = .next (reject .wrongMode s) := by
  simp [exec, execDecPull, pullReject, h]

/-- No pull leaves `FAULT` (60 R270). -/
theorem pulls_stay_in_fault {k : Nat} {s u : State} (h : s.mode = .fault)
    (hrun : runCommands (List.replicate k .decPull) s = .next u) : u.mode = .fault := by
  induction k generalizing s with
  | zero => cases hrun; exact h
  | succ k ih =>
    rw [List.replicate_succ, runCommands_cons, exec_decPull_of_fault h, andThen_next] at hrun
    exact ih (by exact h) hrun

/-- Pulls that do not end in `FAULT` are the first pulls of the decode (45 R247). -/
theorem runPulls_of_pulls {k : Nat} {s u : State} (n : Nat)
    (hrun : runCommands (List.replicate k .decPull) s = .next u) (hu : u.mode ≠ .fault) :
    runPulls (k + n) s = runPulls n u := by
  induction k generalizing s with
  | zero => cases hrun; rw [Nat.zero_add]
  | succ k ih =>
    obtain ⟨t, hpull, hrest⟩ := andThen_eq_next.1 hrun
    have ht : t.mode ≠ .fault := fun h => hu (pulls_stay_in_fault h hrest)
    rw [Nat.add_right_comm, runPulls_succ_of_pulled _ hpull ht, ih hrest]

/-- Settles O59: the encode job runs and its bytes decode to its values in lock-step; and a decode is its pulls up to the
first fault. -/
theorem decodeInvertsEncode : Obligations.DecodeInvertsEncode := by
  refine ⟨fun s d values _ hd hidx hroom => ?roundTrip, fun s m u bytes count k hload hrun hu => ?fullCount⟩
  case roundTrip =>
    obtain ⟨m, hm, hrun, hpushes, hjob⟩ := encodeJob_runs s values hroom
    refine ⟨m, _, hpushes, hjob, fun hcap => ?_⟩
    rw [List.range_eq_range']
    exact runDecode_of_encoded hd hidx hroom hm hrun hcap
  case fullCount =>
    have hdecode : runDecode bytes count s = runPulls count.toNat m := by
      rw [runDecode, loadJob, hload, andThen_next]
    refine ⟨fun hk => ?_, fun hk t hpull ht => ?_⟩
    · rw [hdecode, ← hk, ← runPulls_zero u, ← runPulls_of_pulls 0 hrun hu, Nat.add_zero]
    · obtain ⟨n, hn⟩ := Nat.exists_eq_add_of_lt hk
      rw [hdecode, hn, Nat.add_assoc, runPulls_of_pulls (n + 1) hrun hu, runPulls_succ_of_faulted n hpull ht]

/-- Settles O60: the two jobs without values, each of two commands; the empty input's end is at bit 0. -/
theorem emptyInputIsEmpty : Obligations.EmptyInputIsEmpty := by
  intro s
  obtain ⟨m, -, hrun, -, hjob⟩ := encodeJob_runs s [] (Nat.two_pow_pos _)
  cases hrun
  have hdecode (t : State) : runDecode [] 0 t = .next (respondOk 0 { decStarted 0 t with mode := .idle }) :=
    runPulls_zero_of_decoding (s := decStarted 0 t) (.inl rfl)
  refine ⟨_, hjob, rfl, rfl, ?_, _, hdecode _, ?_⟩
  · rw [finish_of_empty rfl]
    simp [encStarted]
  · simp [decStarted]

end Sys2Proof.Machine

/-!
The control commands and the table of modes (45 R240 to R245). Each command but the free ones tests its mode first; where
the test fails it is rejected with `WRONG_MODE`, and where it passes no answer is that reject.
-/

namespace Sys2Proof.Machine

/-! ## READ_CSR, SOFT_RESET, NOP and the reserved opcodes -/

/-- No register is numbered from 7 on (10 R35). -/
theorem csr_of_ge {n : BitVec 64} (s : State) (h : 7 ≤ n.toNat) : csr n s = none := by
  obtain ⟨k, hk⟩ := Nat.exists_eq_add_of_le' h
  rw [csr, hk]
  rfl

/-- Settles O45: the seven numbers by the definition of `csr`, and the bound (`csr_of_ge`). -/
theorem readCsrReturnsTheRegister : Obligations.ReadCsrReturnsTheRegister := by
  refine fun s => ⟨rfl, rfl, rfl, rfl, rfl, rfl, rfl, fun n hn => ?_⟩
  simp only [exec, execReadCsr, csr_of_ge s hn]
  rfl

theorem decodeCommand_nop (arg : BitVec 64) : decodeCommand (0x0#4 ++ arg) = .nop := by
  simp only [decodeCommand, extract_high]
  rfl

theorem decodeCommand_softReset (arg : BitVec 64) : decodeCommand (0x9#4 ++ arg) = .softReset := by
  simp only [decodeCommand, extract_high]
  rfl

/-- Every opcode above 9 is reserved, whatever its `ARG` (30 R99). -/
theorem decodeCommand_reserved {op : BitVec 4} (arg : BitVec 64) (h : 10 ≤ op.toNat) :
    decodeCommand (op ++ arg) = .reserved op := by
  obtain ⟨k, hk⟩ := Nat.exists_eq_add_of_le' h
  simp only [decodeCommand, extract_high, hk]

/-- Settles O47: reset's clear is the reset state but for the build and the streams. -/
theorem softResetIsPowerOnReset : Obligations.SoftResetIsPowerOnReset := by
  refine fun s arg => ⟨rfl, ?_⟩
  rw [decodeCommand_softReset]
  rfl

/-- Settles O48: the two meanings, and the words that decode to them. -/
theorem nopAndReservedChangeNothing : Obligations.NopAndReservedChangeNothing := by
  refine fun s op arg => ⟨rfl, ?nop, rfl, fun hop => ?reserved⟩
  case nop => rw [decodeCommand_nop]; rfl
  case reserved => rw [decodeCommand_reserved arg hop]; rfl

/-! ## The table of modes -/

theorem statusCode_ne_wrongMode {st : Status} (h : st ≠ .wrongMode) : statusCode st ≠ statusCode .wrongMode := by
  cases st with
  | wrongMode => exact absurd rfl h
  | fault c => cases c <;> decide
  | ok | illegalOp | countExhausted | ibufFull | indexFull | badCsr => decide

/-- An answer with another status is not the reject: the two last words differ in their status (30 R98). -/
theorem respond_ne_wrongMode {st : Status} {d : BitVec 64} {s u : State} (hst : st ≠ .wrongMode)
    (hu : u.rsps = s.rsps) : respond st d u ≠ reject .wrongMode s := by
  intro h
  have hrsps := congrArg State.rsps h
  rw [respond_rsps, respond_rsps, hu] at hrsps
  have hword : responseWord st d = responseWord .wrongMode 0 := by simpa using hrsps
  apply statusCode_ne_wrongMode hst
  rw [← (responseWord_fields st d).1, hword, (responseWord_fields .wrongMode 0).1]

theorem enterFault_ne_wrongMode (c : FaultCode) (s : State) : enterFault c s ≠ reject .wrongMode s :=
  respond_ne_wrongMode (st := .fault c) nofun rfl

/-- The command is rejected with `WRONG_MODE`, and nothing but the response changes. -/
def RejectsMode (r : Result) (s : State) : Prop := r = .next (reject .wrongMode s)

theorem not_rejectsMode_respond {st : Status} {d : BitVec 64} {s u : State} (hst : st ≠ .wrongMode)
    (hu : u.rsps = s.rsps) : ¬ RejectsMode (.next (respond st d u)) s :=
  fun h => respond_ne_wrongMode hst hu (Host.Outcome.next.inj h)

theorem rejectsMode_reject_iff {st : Status} {s : State} : RejectsMode (.next (reject st s)) s ↔ st = .wrongMode :=
  ⟨fun h => by_contra fun hst => not_rejectsMode_respond hst rfl h, fun h => h ▸ rfl⟩

/-- A command that tests its mode first, and answers no `WRONG_MODE` after that, is rejected exactly where the test
fails. -/
theorem rejectsMode_guard_iff {p : Prop} [Decidable p] {s : State} {rest : Result} (h : ¬ RejectsMode rest s) :
    RejectsMode (if p then .next (reject .wrongMode s) else rest) s ↔ p := by
  by_cases hp : p
  · simp [hp, RejectsMode]
  · simp [hp, h]

/-! ### Each command that tests its mode -/

theorem not_rejectsMode_readCsr (n : BitVec 64) (s : State) : ¬ RejectsMode (exec (.readCsr n) s) s := by
  simp only [exec, execReadCsr]
  split
  · exact not_rejectsMode_respond nofun rfl
  · exact not_rejectsMode_respond nofun rfl

theorem rejectsMode_encPush_iff (v : Value) (s : State) :
    RejectsMode (exec (.encPush v) s) s ↔ s.mode ≠ .enc := by
  refine rejectsMode_guard_iff ?_
  split
  · exact not_rejectsMode_respond nofun rfl
  · split
    · exact nofun
    · rename_i r _
      exact not_rejectsMode_respond nofun (emit_same r s).rsps

theorem rejectsMode_encFinish_iff (s : State) : RejectsMode (exec .encFinish s) s ↔ s.mode ≠ .enc :=
  rejectsMode_guard_iff (not_rejectsMode_respond nofun (finish_same s).rsps)

theorem rejectsMode_decFeed_iff (b : Byte) (s : State) :
    RejectsMode (exec (.decFeed b) s) s ↔ s.mode ≠ .decLoad := by
  refine rejectsMode_guard_iff ?_
  split
  · exact not_rejectsMode_respond nofun rfl
  · exact not_rejectsMode_respond nofun rfl

theorem rejectsMode_decEnd_iff (s : State) :
    RejectsMode (exec .decEnd s) s ↔ s.mode ≠ .decLoad ∧ s.mode ≠ .decRun :=
  rejectsMode_guard_iff (not_rejectsMode_respond nofun rfl)

/-! ### The pull and the records it executes -/

/-- `WRONG_MODE` is the first of the rejects of DEC_PULL (44 R212, 60 R268). -/
theorem pullReject_wrongMode_iff {s : State} :
    pullReject s = some .wrongMode ↔ s.mode ≠ .decLoad ∧ s.mode ≠ .decRun := by
  unfold pullReject
  by_cases hmode : s.mode ≠ .decLoad ∧ s.mode ≠ .decRun
  · simp [hmode]
  · rw [if_neg hmode]
    refine iff_of_false ?_ hmode
    repeat' split
    all_goals exact nofun

theorem not_rejectsMode_stopAt (e : ReadStop) (s : State) : ¬ RejectsMode (stopAt e s) s := by
  intro h
  obtain ⟨c, -, hc⟩ := stopAt_next h
  exact enterFault_ne_wrongMode c s hc.symm

theorem not_rejectsMode_completeRecord (r : Record) (pos : Nat) (s : State) :
    ¬ RejectsMode (completeRecord r pos s) s := by
  intro h
  rcases completeRecord_next h with ⟨v, -, hv⟩ | ⟨c, -, hc⟩
  · exact respond_ne_wrongMode (st := .ok) nofun (commitPull_rsps s v r pos) hv.symm
  · exact enterFault_ne_wrongMode c s hc.symm

theorem rejectsMode_decPull_iff (s : State) :
    RejectsMode (exec .decPull s) s ↔ s.mode ≠ .decLoad ∧ s.mode ≠ .decRun := by
  rw [← pullReject_wrongMode_iff]
  simp only [exec, execDecPull]
  cases pullReject s with
  | some st => simpa using rejectsMode_reject_iff
  | none =>
    refine iff_of_false ?_ nofun
    dsimp only
    split
    · exact not_rejectsMode_stopAt _ s
    · exact not_rejectsMode_completeRecord _ _ s

/-- The row of the decode job's two modes. -/
theorem decoding_row_iff (m : Mode) :
    (m ≠ .decLoad ∧ m ≠ .decRun) ↔ (m == .decLoad || m == .decRun) = false := by
  cases m <;> decide

theorem legalIn_record (m : Mode) (r : Record) : legalIn m r.toInstr = (m == .decLoad || m == .decRun) := by
  cases r <;> rfl

/-- A record as an instruction has the rejects of DEC_PULL, and its row (log 10). -/
theorem rejectsMode_record_iff (r : Record) (s : State) :
    RejectsMode (exec r.toInstr s) s ↔ legalIn s.mode r.toInstr = false := by
  rw [legalIn_record, ← decoding_row_iff, ← pullReject_wrongMode_iff, exec_toInstr, execRecord]
  cases pullReject s with
  | some st => simpa using rejectsMode_reject_iff
  | none =>
    refine iff_of_false ?_ nofun
    dsimp only
    split
    · exact not_rejectsMode_completeRecord _ _ s
    · exact nofun

/-- Settles O49, row by row: the commands of every mode are never rejected with `WRONG_MODE`, the others exactly where
their test of the mode fails. -/
theorem modeLegalityTable : Obligations.ModeLegalityTable := by
  intro i s
  change RejectsMode (exec i s) s ↔ _
  cases i with
  | nop | encStart | decStart _ | softReset | reserved _ =>
    exact iff_of_false (not_rejectsMode_respond nofun rfl) nofun
  | readCsr n => exact iff_of_false (not_rejectsMode_readCsr n s) nofun
  | encPush v => exact (rejectsMode_encPush_iff v s).trans beq_eq_false_iff_ne.symm
  | encFinish => exact (rejectsMode_encFinish_iff s).trans beq_eq_false_iff_ne.symm
  | decFeed b => exact (rejectsMode_decFeed_iff b s).trans beq_eq_false_iff_ne.symm
  | decPull => exact (rejectsMode_decPull_iff s).trans (decoding_row_iff s.mode)
  | decEnd => exact (rejectsMode_decEnd_iff s).trans (decoding_row_iff s.mode)
  | verbatim v => exact rejectsMode_record_iff (.verbatim v) s
  | exactMatch d => exact rejectsMode_record_iff (.exactMatch d) s
  | backRefPayload d b l p => exact rejectsMode_record_iff (.backRefPayload d b l p) s
  | prevSameBin x => exact rejectsMode_record_iff (.prevSameBin x) s
  | prevNewBin b x => exact rejectsMode_record_iff (.prevNewBin b x) s

end Sys2Proof.Machine

/-!
Rejects and the way out of `FAULT` (60 R261, R270). The status of an answer tells a reject from everything else an
instruction can do (`Steps`); and of those things, in `FAULT`, a test of the mode leaves only a reject, NOP and READ_CSR
to a command that does not start over.
-/

namespace Sys2Proof.Machine

/-! ## The status an answer carries -/

/-- The table of the statuses (30 R102), read from the code. -/
def statusOfCode (code : BitVec 4) : Option Status :=
  match code.toNat with
  | 0 => some .ok
  | 1 => some .illegalOp
  | 2 => some .wrongMode
  | 3 => some .countExhausted
  | 4 => some .ibufFull
  | 5 => some .indexFull
  | 6 => some .badCsr
  | 8 => some (.fault .readOob)
  | 9 => some (.fault .badDistance)
  | 10 => some (.fault .badLength)
  | 11 => some (.fault .noPrevBin)
  | _ => none

theorem statusOfCode_statusCode (st : Status) : statusOfCode (statusCode st) = some st := by
  cases st with
  | fault c => cases c <;> rfl
  | ok | illegalOp | wrongMode | countExhausted | ibufFull | indexFull | badCsr => rfl

theorem statusCode_inj {a b : Status} (h : statusCode a = statusCode b) : a = b :=
  Option.some.inj (by rw [← statusOfCode_statusCode a, h, statusOfCode_statusCode])

/-- The last response tells the status of the command (30 R98). -/
theorem respond_status_eq {a b : Status} {d e : BitVec 64} {s u : State} (hu : u.rsps = s.rsps)
    (h : (respond a d u).rsps = s.rsps ++ [responseWord b e]) : a = b := by
  rw [respond_rsps, hu] at h
  have hword : responseWord a d = responseWord b e := by simpa using h
  exact statusCode_inj (by rw [← (responseWord_fields a d).1, hword, (responseWord_fields b e).1])

/-! ## What answers as a reject is a reject -/

/-- An instruction is rejected, or answers with another status from a state with the responses of the old one. -/
theorem Steps.rejected_or_responds {i : Instr} {s t : State} (h : Steps i s t) :
    (∃ st, t = reject st s) ∨ ∃ st d u, t = respond st d u ∧ u.rsps = s.rsps ∧ st.isReject = false := by
  cases h with
  | rejected st _ => exact .inl ⟨st, rfl⟩
  | nop | readCsr _ _ | softReset | encStart | decStart | decFeed _ _ | decEnd _ | pulled _ _ _ _ _ _
  | executed _ _ _ _ _ => exact .inr ⟨.ok, _, _, rfl, rfl, rfl⟩
  | encPush r _ _ _ => exact .inr ⟨.ok, _, _, rfl, (emit_same r s).rsps, rfl⟩
  | encFinish _ => exact .inr ⟨.ok, _, _, rfl, (finish_same s).rsps, rfl⟩
  | pullFault c _ | recordFault _ c _ => exact .inr ⟨.fault c, 0, _, rfl, rfl, rfl⟩

/-- Settles O51: the status of the answer is that of a reject, so the instruction was rejected, and with that status. -/
theorem rejectsChangeNothing : Obligations.RejectsChangeNothing := by
  intro i s t st hst h hrsps
  rcases (exec_steps h).rejected_or_responds with ⟨st', rfl⟩ | ⟨st', d, u, rfl, hu, hother⟩
  · exact congrArg (reject · s) (respond_status_eq rfl hrsps)
  · rw [respond_status_eq hu hrsps, hst] at hother
    cases hother

/-! ## In `FAULT` -/

/-- Job start and reset leave `FAULT` and clear `CAUSE`, from any mode (10 R40, 60 R270). -/
theorem exec_startsOver_leaves_fault {i : Instr} {s t : State} (h : exec i s = .next t) (hi : startsOver i = true) :
    t.mode ≠ .fault ∧ t.cause = none := by
  cases i with
  | encStart | decStart _ | softReset => cases h; exact ⟨nofun, rfl⟩
  | nop | encPush _ | encFinish | decFeed _ | decPull | decEnd | readCsr _ | reserved _ | verbatim _ | exactMatch _
  | backRefPayload _ _ _ _ | prevSameBin _ | prevNewBin _ _ => nomatch hi

theorem not_decoding_of_fault {s : State} (h : s.mode = .fault) : ¬(s.mode = .decLoad ∨ s.mode = .decRun) := by
  simp [h]

/-- In `FAULT` a command that does not start over is rejected, or is NOP or READ_CSR and answers `OK` (60 R270): the
others act only in the modes of a job. -/
theorem Steps.in_fault {i : Instr} {s t : State} (h : Steps i s t) (hs : s.mode = .fault)
    (hi : startsOver i = false) :
    (∃ st, st.isReject = true ∧ t = reject st s) ∨
      (i = .nop ∨ ∃ n, i = .readCsr n) ∧ ∃ d, t = respondOk d s := by
  cases h with
  | rejected st hst => exact .inl ⟨st, hst, rfl⟩
  | nop => exact .inr ⟨.inl rfl, 0, rfl⟩
  | readCsr d _ => exact .inr ⟨.inr ⟨_, rfl⟩, d, rfl⟩
  | softReset | encStart | decStart => nomatch hi
  | encPush _ hm _ _ | encFinish hm | decFeed hm _ => nomatch hs.symm.trans hm
  | decEnd hm => exact absurd hm (not_decoding_of_fault hs)
  | pulled _ _ _ hg _ _ | pullFault _ hg | executed _ _ hg _ _ | recordFault _ _ hg =>
    exact absurd (pullReject_none.1 hg).1 (not_decoding_of_fault hs)

/-- Settles O52: what starts over (`exec_startsOver_leaves_fault`), and what does not (`Steps.in_fault`). -/
theorem faultIsLeftByStartingOver : Obligations.FaultIsLeftByStartingOver := by
  refine fun i s t hs h => ⟨exec_startsOver_leaves_fault h, fun hi => ?stays⟩
  rcases (exec_steps h).in_fault hs hi with ⟨st, hst, rfl⟩ | ⟨hfree, d, rfl⟩
  · exact ⟨hs, rfl, rfl, fun _ _ => ⟨st, hst, rfl⟩⟩
  · refine ⟨hs, rfl, rfl, fun hnop hcsr => ?_⟩
    rcases hfree with rfl | ⟨n, rfl⟩
    · exact absurd rfl hnop
    · exact absurd rfl (hcsr n)

end Sys2Proof.Machine

/-!
The input buffer (20 R67, 70 R299). Only DEC_FEED, which needs `DEC_LOAD`, and a command that starts over write `IN` and
`IN_LEN`; so in every other mode, `DEC_RUN` among them, the rest of the commands keep both.
-/

namespace Sys2Proof.Machine

/-- Outside `DEC_LOAD` only what starts over writes the input buffer: a push and a finish write only the writer's part
of the state, a pull and a record only read `IN`. -/
theorem Steps.keepsInput {i : Instr} {s t : State} (h : Steps i s t) (hs : s.mode ≠ .decLoad)
    (hi : startsOver i = false) : t.inMem = s.inMem ∧ t.inLen = s.inLen := by
  cases h with
  | decFeed hm _ => exact absurd hm hs
  | softReset | encStart | decStart => nomatch hi
  | encPush r _ _ _ => exact ⟨(emit_same r s).inMem, (emit_same r s).inLen⟩
  | encFinish _ => exact ⟨(finish_same s).inMem, (finish_same s).inLen⟩
  | rejected _ _ | nop | readCsr _ _ | decEnd _ | pulled _ _ _ _ _ _ | pullFault _ _ | executed _ _ _ _ _
  | recordFault _ _ _ => exact ⟨rfl, rfl⟩

/-- Settles O53: `DEC_RUN` is not `DEC_LOAD`, so the input is kept (`Steps.keepsInput`) and DEC_FEED is rejected for its
mode (`rejectsMode_decFeed_iff`). -/
theorem inputIsFrozenWhileDecoding : Obligations.InputIsFrozenWhileDecoding := by
  intro i s t hs h hi
  have hload : s.mode ≠ .decLoad := by simp [hs]
  obtain ⟨hmem, hlen⟩ := (exec_steps h).keepsInput hload hi
  refine ⟨fun a => by rw [hmem], hlen, ?feed⟩
  rintro b rfl
  have hreject : exec (.decFeed b) s = .next (reject .wrongMode s) := (rejectsMode_decFeed_iff b s).2 hload
  exact Host.Outcome.next.inj (h.symm.trans hreject)

end Sys2Proof.Machine

/-!
The decode tree read backwards (30 R87, 44 R213 to R220): what each part of it answers is spelled by the bits it read.
With `decodeRecord_spelled`, the other direction, this settles the record encodings.
-/

namespace Sys2Proof.Machine

/-- Settles O2: `decodeRecord_spelled`, the record's bits being as many as its length. -/
theorem recordRoundTrip : Obligations.RecordRoundTrip := by
  intro src index pb pos r hwf hctx h
  rw [encodeRecord_length]
  exact decodeRecord_spelled hwf hctx h

/-- The bin code that was read spells its bin (41 R143, R144). -/
theorem fieldBits_decodeBin (code : Value) :
    fieldBits 3 ((encodeBin (decodeBin (code.truncate 3))).zeroExtend 64) = fieldBits 3 code := by
  rw [encodeBin_decodeBin, fieldBits_truncate]

/-- A length that was read in 6 bits is the number in its field (30 R90). -/
theorem truncate_len_toNat {len : Value} (h : len.toNat < 2 ^ 6) : (len.truncate 6 : BitVec 6).toNat = len.toNat := by
  rw [BitVec.truncate_eq_setWidth, BitVec.toNat_setWidth, Nat.mod_eq_of_lt h]

theorem decodeVerbatim_ok {src : BitSource} {pos pos' : Nat} {r : Record} (h : decodeVerbatim src pos = .ok (r, pos')) :
    ∃ v, r = .verbatim v ∧ pos' = pos + 64 ∧ Spells src pos (fieldBits 64 v) := by
  obtain ⟨⟨v, p⟩, hv, h⟩ := bind_ok.1 h
  cases h
  obtain ⟨hp, hspell, -⟩ := readBits_ok le_rfl hv
  exact ⟨v, rfl, hp, hspell⟩

/-- A BackRefPayload that was read keeps within 64 bits, and its payload fits its length (44 R217). -/
theorem decodeBackRefPayload_ok {src : BitSource} {dist : BitVec 7} {pos pos' : Nat} {r : Record}
    (h : decodeBackRefPayload src dist pos = .ok (r, pos')) :
    ∃ b len p, r = .backRefPayload dist b len p ∧ binValue b + len.toNat ≤ 64 ∧ p.toNat < 2 ^ len.toNat ∧
      pos' = pos + 9 + len.toNat ∧
      Spells src pos (fieldBits 3 ((encodeBin b).zeroExtend 64) ++ (fieldBits 6 (len.zeroExtend 64) ++
        fieldBits len.toNat p)) := by
  obtain ⟨⟨code, p1⟩, hcode, h⟩ := bind_ok.1 h
  obtain ⟨⟨len, p2⟩, hlen, h⟩ := bind_ok.1 h
  obtain ⟨rfl, hscode, -⟩ := readBits_ok (by decide) hcode
  obtain ⟨rfl, hslen, hlen6⟩ := readBits_ok (by decide) hlen
  dsimp only at h
  split at h
  case isTrue => cases h
  case isFalse hfit =>
    obtain ⟨⟨p, p3⟩, hp, h⟩ := bind_ok.1 h
    cases h
    obtain ⟨rfl, hsp, hpfit⟩ := readBits_ok (by omega) hp
    refine ⟨_, _, p, rfl, ?_, ?_, ?_⟩ <;> rw [truncate_len_toNat hlen6]
    · exact Nat.not_lt.1 hfit
    · exact hpfit
    · refine ⟨rfl, ?_⟩
      rw [fieldBits_decodeBin, fieldBits_truncate]
      exact spells_append.2 ⟨hscode, spells_append.2 ⟨by simpa using hslen, by simpa [Nat.add_assoc] using hsp⟩⟩

/-- The back-reference branch reads a distance within the values seen, and then one of its two records (44 R215). -/
theorem decodeBackRef_ok {src : BitSource} {index pos pos' : Nat} {r : Record}
    (h : decodeBackRef src index pos = .ok (r, pos')) :
    ∃ dist, distanceOf dist ≤ index ∧ Spells src pos (fieldBits 7 (dist.zeroExtend 64)) ∧
      ((src (pos + 7) = .ok false ∧ r = .exactMatch dist ∧ pos' = pos + 8) ∨
        (src (pos + 7) = .ok true ∧ decodeBackRefPayload src dist (pos + 8) = .ok (r, pos'))) := by
  obtain ⟨⟨field, p⟩, hfield, h⟩ := bind_ok.1 h
  obtain ⟨rfl, hspell, -⟩ := readBits_ok (by decide) hfield
  dsimp only at h
  split at h
  case isTrue => cases h
  case isFalse hd =>
    obtain ⟨c2, hc2, h⟩ := bind_ok.1 h
    refine ⟨field.truncate 7, Nat.not_lt.1 hd, by rwa [fieldBits_truncate], ?_⟩
    cases c2 with
    | false => cases h; exact .inl ⟨hc2, rfl, rfl⟩
    | true => exact .inr ⟨hc2, h⟩

/-- The previous-value branch reads one of its two records, whose payload fits its bin (44 R218 to R220). -/
theorem decodePrev_ok {src : BitSource} {pb : Option Bin} {pos pos' : Nat} {r : Record}
    (h : decodePrev src pb pos = .ok (r, pos')) :
    (∃ b x, r = .prevNewBin b x ∧ x.toNat < 2 ^ (64 - binValue b) ∧ pos' = pos + 4 + (64 - binValue b) ∧
      Spells src pos (true :: (fieldBits 3 ((encodeBin b).zeroExtend 64) ++ fieldBits (64 - binValue b) x))) ∨
    (∃ b x, pb = some b ∧ r = .prevSameBin x ∧ x.toNat < 2 ^ (64 - binValue b) ∧
      pos' = pos + 1 + (64 - binValue b) ∧ Spells src pos (false :: fieldBits (64 - binValue b) x)) := by
  obtain ⟨c2, hc2, h⟩ := bind_ok.1 h
  cases c2 with
  | true =>
    obtain ⟨⟨code, p1⟩, hcode, h⟩ := bind_ok.1 h
    obtain ⟨⟨x, p2⟩, hx, h⟩ := bind_ok.1 h
    cases h
    obtain ⟨rfl, hscode, -⟩ := readBits_ok (by decide) hcode
    obtain ⟨rfl, hsx, hxfit⟩ := readBits_ok (Nat.sub_le ..) hx
    refine .inl ⟨_, x, rfl, hxfit, rfl, spells_cons.2 ⟨hc2, spells_append.2 ⟨?_, by simpa using hsx⟩⟩⟩
    rwa [fieldBits_decodeBin]
  | false =>
    cases pb with
    | none => cases h
    | some b =>
      obtain ⟨⟨x, p⟩, hx, h⟩ := bind_ok.1 h
      cases h
      obtain ⟨rfl, hsx, hxfit⟩ := readBits_ok (Nat.sub_le ..) hx
      exact .inr ⟨b, x, rfl, rfl, hxfit, rfl, spells_cons.2 ⟨hc2, hsx⟩⟩

/-- Settles O3, along the decode tree: each part says what it read (`decodeVerbatim_ok`, `decodePrev_ok`,
`decodeBackRef_ok`, `decodeBackRefPayload_ok`). -/
theorem decodedRecordIsSpelled : Obligations.DecodedRecordIsSpelled := by
  intro src index pb pos r pos' h
  unfold decodeRecord at h
  split at h
  case isTrue h0 =>
    obtain ⟨v, rfl, rfl, hspell⟩ := decodeVerbatim_ok h
    exact ⟨rfl, by simp [Record.fitsContext, h0], hspell, rfl⟩
  case isFalse h0 =>
    have hi : 1 ≤ index := Nat.one_le_iff_ne_zero.2 h0
    obtain ⟨c1, hc1, h⟩ := bind_ok.1 h
    cases c1 with
    | true =>
      rcases decodePrev_ok h with ⟨b, x, rfl, hx, rfl, hspell⟩ | ⟨b, x, rfl, rfl, hx, rfl, hspell⟩
      · exact ⟨decide_eq_true hx, decide_eq_true hi, spells_cons.2 ⟨hc1, hspell⟩, by simp [recordLength]; omega⟩
      · exact ⟨rfl, by simp [Record.fitsContext, fitsBits, hi, hx], spells_cons.2 ⟨hc1, hspell⟩,
          by simp [recordLength, sameBinWidth]; omega⟩
    | false =>
      obtain ⟨dist, hd, hdist, ⟨hc2, rfl, rfl⟩ | ⟨hc2, h⟩⟩ := decodeBackRef_ok h
      · refine ⟨rfl, by simp [Record.fitsContext, hi, hd], spells_cons.2 ⟨hc1, ?_⟩, rfl⟩
        exact spells_append.2 ⟨hdist, by simpa [spells_singleton] using hc2⟩
      · obtain ⟨b, len, p, rfl, hfit, hp, rfl, hspell⟩ := decodeBackRefPayload_ok h
        refine ⟨decide_eq_true hp, by simp [Record.fitsContext, hi, hd, hfit], ?_, by simp [recordLength]; omega⟩
        simp only [encodeRecord, List.append_assoc, List.singleton_append]
        refine spells_cons.2 ⟨hc1, spells_append.2 ⟨hdist, ?_⟩⟩
        rw [fieldBits_length]
        exact spells_cons.2 ⟨hc2, hspell⟩

end Sys2Proof.Machine

/-!
The invariant (10 R38). It is kept by each of the things a command can do: the writer's operations, one more value, one
more byte, a change of mode; and it holds afresh of a cleared job. A pull keeps `RD_POS` within the input because what
it read lies there (`decodedRecordIsSpelled`).
-/

namespace Sys2Proof.Machine

/-! ## What keeps the invariant -/

/-- A response does not matter to the invariant. -/
theorem State.Inv.respond {s : State} (h : s.Inv) (st : Status) (d : BitVec 64) : (respond st d s).Inv :=
  h.streams s.port _

theorem SameButWriter.eq {s t : State} (e : SameButWriter s t) :
    t = { s with wpart := t.wpart, wfill := t.wfill, out := t.out, outLen := t.outLen } := by
  cases t
  cases e
  simp_all

/-- What is remembered is remembered by every state with the same `INDEX`, ring and lookup table. -/
theorem State.Inv.remembers_congr {s t : State} (h : s.Inv) (hi : t.index = s.index) (hr : t.ring = s.ring)
    (hl : t.lut = s.lut) : ∃ hist, Remembers hist t :=
  h.remembers.imp fun _ hrem => hrem.congr hi hr hl

/-- The writer keeps the invariant when it keeps its own. -/
theorem State.Inv.of_sameButWriter {s t : State} (h : s.Inv) (e : SameButWriter s t) (hw : WriterOk t) : t.Inv := by
  rw [e.eq]
  exact { h with
    remembers := h.remembers_congr rfl rfl rfl
    part_clear := hw.part_clear
    out_counted := hw.out_counted }

theorem State.Inv.writerOk {s : State} (h : s.Inv) : WriterOk s := ⟨h.part_clear, h.out_counted⟩

theorem State.Inv.emit {s : State} (h : s.Inv) (r : Record) : (emit r s).Inv :=
  h.of_sameButWriter (emit_same r s) (emit_ok r h.writerOk)

theorem State.Inv.finish {s : State} (h : s.Inv) : (finish s).Inv :=
  h.of_sameButWriter (finish_same s) (finish_ok h.writerOk)

/-- Below its last value `INDEX` has room for one more (92 D18). -/
theorem State.Inv.succ_index_lt {s : State} (h : s.Inv) (hf : indexFull s = false) :
    s.index + 1 < 2 ^ s.config.idxW := by
  have hlt := h.index_bound
  have hne : s.index ≠ 2 ^ s.config.idxW - 1 := by simpa [indexFull] using hf
  omega

/-- A pushed value keeps the invariant (43 R190). -/
theorem State.Inv.commitPush {s : State} (h : s.Inv) (v : Value) (r : Record) (hm : s.mode = .enc)
    (hf : indexFull s = false) : (commitPush v r s).Inv := by
  obtain ⟨hist, hrem⟩ := h.remembers
  exact { h with
    ring_wf := Table.wf_write h.ring_wf _ _
    lut_wf := Table.wf_write h.lut_wf _ _
    index_bound := h.succ_index_lt hf
    remembers := ⟨hist ++ [v], hrem.commit v rfl rfl rfl⟩
    load_index := fun hload => nomatch hm.symm.trans hload
    run_index := fun _ => Nat.succ_ne_zero _ }

/-- A pulled value whose record lies in the input keeps the invariant (44 R221). -/
theorem State.Inv.commitPull {s : State} (h : s.Inv) (v : Value) (r : Record) {pos : Nat} (hm : s.mode ≠ .fault)
    (hf : indexFull s = false) (hpos : pos ≤ 8 * s.inLen) : (commitPull v r pos s).Inv := by
  obtain ⟨hist, hrem⟩ := h.remembers
  exact { h with
    ring_wf := Table.wf_write h.ring_wf _ _
    lut_wf := Table.wf_write h.lut_wf _ _
    index_bound := h.succ_index_lt hf
    remembers := ⟨hist ++ [v], hrem.commit v rfl rfl rfl⟩
    rd_bound := (Nat.mod_le pos _).trans hpos
    cause_mode := iff_of_true (h.cause_mode.2 hm) nofun
    enc_remaining := nofun
    load_index := nofun
    run_index := fun _ => Nat.succ_ne_zero _ }

/-- A fed byte keeps the invariant (44 R211). -/
theorem State.Inv.feedByte {s : State} (h : s.Inv) (b : Byte) (hc : s.inLen ≠ s.config.inCap) : (feedByte b s).Inv :=
  { h with
    remembers := h.remembers_congr rfl rfl rfl
    in_wf := feedByte_inMem_wf b h.in_wf
    in_loaded := fun a => by
      rw [feedByte_inMem, feedByte_inLen, Table.read_write]
      split
      · simp; omega
      · rw [h.in_loaded]; omega
    in_cap := Nat.lt_of_le_of_ne h.in_cap hc
    rd_bound := h.rd_bound.trans (Nat.mul_le_mul_left 8 (Nat.le_succ _)) }

/-- A job that closes keeps the invariant (43 R191, 44 R222). -/
theorem State.Inv.close {s : State} (h : s.Inv) (hm : s.mode ≠ .fault) : State.Inv { s with mode := .idle } :=
  { h with
    remembers := h.remembers_congr rfl rfl rfl
    cause_mode := iff_of_true (h.cause_mode.2 hm) nofun
    enc_remaining := nofun
    load_index := nofun
    run_index := nofun }

/-- Fault entry keeps the invariant (60 R262). -/
theorem State.Inv.enterFault {s : State} (h : s.Inv) (c : FaultCode) : (enterFault c s).Inv :=
  State.Inv.respond (s := { s with mode := .fault, cause := some c })
    { h with
      remembers := h.remembers_congr rfl rfl rfl
      cause_mode := iff_of_false nofun (not_not.2 rfl)
      enc_remaining := nofun
      load_index := nofun
      run_index := nofun } _ _

/-- Job start and reset begin a job that meets the invariant, in any mode but `FAULT` and `DEC_RUN` (10 R39, R40). -/
theorem inv_of_clearJob {s : State} (hs : s.config.wf) (m : Mode) (n : BitVec 64) (hm : m ≠ .fault) (hrun : m ≠ .decRun)
    (henc : m = .enc → n = 0) : State.Inv { clearJob s with mode := m, remaining := n } :=
  inv_of_cleared hs rfl rfl rfl rfl rfl rfl rfl rfl rfl rfl hm henc hrun

theorem resetCore_inv {s : State} (hs : s.config.wf) : (resetCore s).Inv :=
  inv_of_clearJob hs .idle 0 nofun nofun nofun

/-- Settles O56: reset's job state is clear, and its build is legal. -/
theorem resetMeetsTheInvariant : Obligations.ResetMeetsTheInvariant :=
  inv_of_cleared (by decide) rfl rfl rfl rfl rfl rfl rfl rfl rfl rfl nofun nofun nofun

/-! ## Every command keeps it -/

/-- The record that was fetched ends within the input. -/
theorem fetchRecord_le_input {s : State} {r : Record} {pos : Nat} (h : fetchRecord s = .ok (r, pos)) :
    pos ≤ 8 * s.inLen := by
  obtain ⟨-, -, hspell, rfl⟩ := decodedRecordIsSpelled _ _ _ _ _ _ h
  rw [← encodeRecord_length]
  exact spells_le_input hspell (encodeRecord_ne_nil s.pb r)

theorem not_fault_of_decoding {s : State} (h : s.mode = .decLoad ∨ s.mode = .decRun) : s.mode ≠ .fault :=
  fun hf => not_decoding_of_fault hf h

/-- Every instruction the host can issue keeps the invariant; a record as an instruction does not, since it moves
`RD_POS` whether or not its bits are there (log 10). -/
theorem Steps.keepsInv {i : Instr} {s t : State} (h : Steps i s t) (hi : ∀ r : Record, i ≠ r.toInstr) (hs : s.Inv) :
    t.Inv := by
  cases h with
  | rejected st _ => exact hs.respond st 0
  | nop => exact hs.respond .ok 0
  | readCsr d _ => exact hs.respond .ok d
  | softReset => exact (resetCore_inv hs.config_wf).respond .ok 0
  | encStart => exact (inv_of_clearJob hs.config_wf .enc 0 nofun nofun fun _ => rfl).respond .ok 0
  | decStart => exact (inv_of_clearJob hs.config_wf .decLoad _ nofun nofun nofun).respond .ok 0
  | encPush r hm hf _ =>
    have e := emit_same r s
    refine State.Inv.respond ((hs.emit r).commitPush _ r (e.mode.trans hm) ?_) .ok _
    rwa [indexFull, e.index, e.config]
  | encFinish hm =>
    exact (hs.finish.close (by rw [(finish_same s).mode, hm]; nofun)).respond .ok _
  | decFeed _ hc => exact (hs.feedByte _ hc).respond .ok _
  | pulled r pos v hg hr _ =>
    obtain ⟨hm, -, hf⟩ := pullReject_none.1 hg
    exact (hs.commitPull v r (not_fault_of_decoding hm) hf (fetchRecord_le_input hr)).respond .ok v
  | pullFault c _ => exact hs.enterFault c
  | executed r _ _ _ _ | recordFault r _ _ => exact absurd rfl (hi r)
  | decEnd hm => exact (hs.close (not_fault_of_decoding hm)).respond .ok _

theorem step_of_command {s : State} {w : CommandWord} {rest : List HostEvent} (h : s.port = .command w :: rest) :
    step s = exec (decodeCommand w) { s with port := rest } := by
  simp only [step, takeEvent, h]

theorem step_of_externalReset {s : State} {rest : List HostEvent} (h : s.port = .externalReset :: rest) :
    step s = .next (resetCore { s with port := rest }) := by
  simp only [step, takeEvent, h]

theorem step_of_idle {s : State} (h : s.port = []) : step s = .next s := by
  simp only [step, takeEvent, h]

/-- Settles O55: the three cases of the port. -/
theorem stepRunsTheDecodedCommand : Obligations.StepRunsTheDecodedCommand :=
  fun _ _ => ⟨fun _ => step_of_command, step_of_externalReset, step_of_idle⟩

/-- Settles O57, by the host's next event: a command keeps the invariant (`Steps.keepsInv`), a reset begins afresh. -/
theorem stepKeepsTheInvariant : Obligations.StepKeepsTheInvariant := by
  intro s t hs h
  cases hport : s.port with
  | nil =>
    rw [step_of_idle hport] at h
    cases h
    exact hs
  | cons e rest =>
    have hs' : State.Inv { s with port := rest } := hs.streams rest s.rsps
    cases e with
    | command w =>
      rw [step_of_command hport] at h
      exact (exec_steps h).keepsInv (decodeCommand_not_record w) hs'
    | externalReset =>
      rw [step_of_externalReset hport] at h
      cases h
      exact resetCore_inv hs'.config_wf

end Sys2Proof.Machine

/-!
No stop (10 R38 (d), 60 R260). Reading a record stops at a bit that cannot be read or at a violation; and a record that
fits its context has a value when the slots of the window are populated.
-/

namespace Sys2Proof.Machine

/-! ## Why a read stops -/

/-- Where it stops, it stops at a bit that cannot be read or at a violation. -/
def StopsFairly {α : Type} (src : BitSource) (x : Except ReadStop α) : Prop :=
  ∀ e, x = .error e → (∃ p, src p = .error e) ∨ ∃ c, e = .violation c

section
variable {α β : Type} {src : BitSource}

theorem StopsFairly.ok (a : α) : StopsFairly src (.ok a) := nofun

theorem StopsFairly.violation (c : FaultCode) : StopsFairly (α := α) src (.error (.violation c)) := by
  rintro _ ⟨⟩
  exact .inr ⟨c, rfl⟩

theorem StopsFairly.bit (pos : Nat) : StopsFairly src (src pos) := fun _ he => .inl ⟨pos, he⟩

theorem StopsFairly.bind {x : Except ReadStop α} {f : α → Except ReadStop β} (hx : StopsFairly src x)
    (hf : ∀ a, StopsFairly src (f a)) : StopsFairly src (x >>= f) := by
  intro e he
  rcases bind_error.1 he with he | ⟨a, -, he⟩
  · exact hx e he
  · exact hf a e he

theorem StopsFairly.readBits (n pos : Nat) (acc : Value) : StopsFairly src (readBits src n pos acc) := by
  intro e he
  obtain ⟨k, -, hk, -⟩ := readBits_error.1 he
  exact .inl ⟨pos + k, hk⟩

end

theorem decodeBackRefPayload_stopsFairly (src : BitSource) (dist : BitVec 7) (pos : Nat) :
    StopsFairly src (decodeBackRefPayload src dist pos) := by
  refine .bind (.readBits _ _ _) fun code => .bind (.readBits _ _ _) fun len => ?_
  dsimp only
  split
  · exact .violation .badLength
  · exact .bind (.readBits _ _ _) fun payload => .ok _

theorem decodeBackRef_stopsFairly (src : BitSource) (index pos : Nat) :
    StopsFairly src (decodeBackRef src index pos) := by
  refine .bind (.readBits _ _ _) fun field => ?_
  dsimp only
  split
  · exact .violation .badDistance
  · refine .bind (.bit _) fun c2 => ?_
    cases c2 with
    | false => exact .ok _
    | true => exact decodeBackRefPayload_stopsFairly src _ _

theorem decodePrev_stopsFairly (src : BitSource) (pb : Option Bin) (pos : Nat) :
    StopsFairly src (decodePrev src pb pos) := by
  refine .bind (.bit _) fun c2 => ?_
  cases c2 with
  | true => exact .bind (.readBits _ _ _) fun code => .bind (.readBits _ _ _) fun x => .ok _
  | false =>
    cases pb with
    | none => exact .violation .noPrevBin
    | some b => exact .bind (.readBits _ _ _) fun x => .ok _

theorem decodeRecord_stopsFairly (src : BitSource) (index : Nat) (pb : Option Bin) (pos : Nat) :
    StopsFairly src (decodeRecord src index pb pos) := by
  unfold decodeRecord
  split
  · exact .bind (.readBits _ _ _) fun v => .ok _
  · refine .bind (.bit _) fun c1 => ?_
    cases c1 with
    | true => exact decodePrev_stopsFairly src pb _
    | false => exact decodeBackRef_stopsFairly src index _

/-- In the invariant every byte of the input was fed, so that a fetch stops at a violation only (20 R52). -/
theorem State.Inv.fetchRecord_error {s : State} (h : s.Inv) {e : ReadStop} (he : fetchRecord s = .error e) :
    ∃ c, e = .violation c := by
  rcases decodeRecord_stopsFairly _ _ _ _ e he with ⟨p, hp⟩ | hc
  · by_cases hin : p < 8 * s.inLen
    · obtain ⟨b, hb⟩ := inputBit_loaded (fun a => (h.in_loaded a).2) hin
      rw [hb] at hp
      cases hp
    · rw [inputBit_past (Nat.not_lt.1 hin)] at hp
      exact ⟨_, (Except.error.inj hp).symm⟩
  · exact hc

/-! ## A record that fits has a value -/

/-- The slots of the last `min(INDEX, 128)` values are populated (20 R69). -/
def WindowPopulated (s : State) : Prop :=
  ∀ e, 1 ≤ e → e ≤ min s.index 128 → (Table.read s.ring ((s.index - e) % 128)).isSome

theorem State.Inv.windowPopulated {s : State} (h : s.Inv) : WindowPopulated s := by
  obtain ⟨hist, hrem⟩ := h.remembers
  intro e h1 h2
  obtain ⟨c, -, hc⟩ := hrem.window h1 h2
  exact Option.isSome_of_eq_some hc

theorem WindowPopulated.referenced {s : State} (h : WindowPopulated s) {dist : BitVec 7}
    (hd : distanceOf dist ≤ s.index) : ∃ v, referenced dist s = .ok v := by
  have hle := distanceOf_le dist
  obtain ⟨v, hv⟩ := Option.isSome_iff_exists.1 (h _ (distanceOf_pos dist) (by omega))
  exact ⟨v, referenced_ok hd hv⟩

theorem WindowPopulated.predecessor {s : State} (h : WindowPopulated s) (hi : 1 ≤ s.index) :
    ∃ v, predecessor s = .ok v := by
  obtain ⟨v, hv⟩ := Option.isSome_iff_exists.1 (h 1 le_rfl (by omega))
  exact ⟨v, predecessor_ok hv⟩

/-- What fits its context refers to a populated slot, and is no violation (30 R94). -/
theorem WindowPopulated.recordValue {s : State} (h : WindowPopulated s) {r : Record}
    (hctx : r.fitsContext s.index s.pb = true) : ∃ v, recordValue r s = .ok v := by
  cases r with
  | verbatim v => exact ⟨v, rfl⟩
  | exactMatch d =>
    simp only [Record.fitsContext, Bool.and_eq_true, decide_eq_true_eq] at hctx
    obtain ⟨-, hd⟩ := hctx
    exact h.referenced hd
  | backRefPayload d b len p =>
    simp only [Record.fitsContext, Bool.and_eq_true, decide_eq_true_eq] at hctx
    obtain ⟨⟨-, hd⟩, hfit⟩ := hctx
    obtain ⟨c, hc⟩ := h.referenced hd
    simp [Machine.recordValue, backRefValue, hc, Nat.not_lt.2 hfit]
  | prevSameBin x =>
    simp only [Record.fitsContext, Bool.and_eq_true, decide_eq_true_eq] at hctx
    obtain ⟨hi, hx⟩ := hctx
    obtain ⟨p, hp⟩ := h.predecessor hi
    cases hpb : s.pb with
    | none => simp [hpb] at hx
    | some b => simp [Machine.recordValue, prevSameValue, hp, hpb]
  | prevNewBin b x =>
    obtain ⟨p, hp⟩ := h.predecessor (of_decide_eq_true hctx)
    simp [Machine.recordValue, prevNewValue, hp]

/-! ## Every command answers -/

/-- From the invariant ENC_PUSH answers: it is rejected, or a record can be chosen (43 R192). -/
theorem State.Inv.encPush_answers {s : State} (h : s.Inv) (v : Value) : ∃ t, exec (.encPush v) s = .next t := by
  obtain ⟨hist, hrem⟩ := h.remembers
  obtain ⟨r, hr⟩ := hrem.chooseRecord_total v
  simp only [exec, execEncPush, hr]
  repeat' split
  all_goals exact ⟨_, rfl⟩

/-- From the invariant DEC_PULL answers: it is rejected, its fetch faults, or the record fetched has a value. -/
theorem State.Inv.decPull_answers {s : State} (h : s.Inv) : ∃ t, exec .decPull s = .next t := by
  cases hg : pullReject s with
  | some st => simp [exec, execDecPull, hg]
  | none =>
    have hc := canPull_iff.2 hg
    cases hf : fetchRecord s with
    | error e =>
      obtain ⟨c, rfl⟩ := h.fetchRecord_error hf
      exact ⟨_, execDecPull_violation hc hf⟩
    | ok rp =>
      obtain ⟨r, pos⟩ := rp
      obtain ⟨-, hctx, -⟩ := decodedRecordIsSpelled _ _ _ _ _ _ hf
      obtain ⟨v, hv⟩ := h.windowPopulated.recordValue hctx
      exact ⟨_, (execDecPull_fetched hc hf).trans (completeRecord_value hv)⟩

/-- From the invariant every instruction the host can issue answers a next state. -/
theorem State.Inv.exec_answers {s : State} (h : s.Inv) {i : Instr} (hi : ∀ r : Record, i ≠ r.toInstr) :
    ∃ t, exec i s = .next t := by
  cases i with
  | nop | encStart | decStart _ | softReset | reserved _ => exact ⟨_, rfl⟩
  | encPush v => exact h.encPush_answers v
  | decPull => exact h.decPull_answers
  | encFinish | decFeed _ | decEnd | readCsr _ =>
    simp only [exec, execEncFinish, execDecFeed, execDecEnd, execReadCsr]
    repeat' split
    all_goals exact ⟨_, rfl⟩
  | verbatim v => exact absurd rfl (hi (.verbatim v))
  | exactMatch d => exact absurd rfl (hi (.exactMatch d))
  | backRefPayload d b l p => exact absurd rfl (hi (.backRefPayload d b l p))
  | prevSameBin x => exact absurd rfl (hi (.prevSameBin x))
  | prevNewBin b x => exact absurd rfl (hi (.prevNewBin b x))

/-- Settles O58, by the host's next event: a command answers (`State.Inv.exec_answers`), and so do a reset and the idle
step. -/
theorem invariantStatesNeverStop : Obligations.InvariantStatesNeverStop := by
  intro s hs
  cases hport : s.port with
  | nil => exact ⟨s, step_of_idle hport⟩
  | cons e rest =>
    cases e with
    | command w =>
      rw [step_of_command hport]
      exact (hs.streams rest s.rsps).exec_answers (decodeCommand_not_record w)
    | externalReset => exact ⟨_, step_of_externalReset hport⟩

end Sys2Proof.Machine

/-!
The records a push writes (43 R182 to R190), and the bytes of the first one (20 R56). The record chosen is known in each
case, so that the bits are those of its encoding and `PB` follows its rule (`exec_encPush_writes`).
-/

namespace Sys2Proof.Machine

/-! ## What a push writes -/

/-- A push in an encode job with room writes the bits of the record it chose and sets `PB` by its rule (43 R181,
R189). -/
theorem exec_encPush_writes {s : State} {v : Value} {r : Record} (hm : s.mode = .enc)
    (hf : s.index ≠ 2 ^ s.config.idxW - 1) (hr : chooseRecord s v = .ok r) :
    ∃ t, exec (.encPush v) s = .next t ∧ Pushed v s t ∧ t.pb = pbAfter s.pb r ∧
      bitsWritten t = bitsWritten s ++ encodeRecord s.pb r :=
  ⟨_, execEncPush_chosen hm hf hr, commitPush_pushed v r s, by simp [(emit_same r s).pb], commitPush_bits v r s _⟩

theorem chooseRecord_first {s : State} (v : Value) (h : s.index = 0) : chooseRecord s v = .ok (.verbatim v) := if_pos h

/-- Settles O23: the first record is Verbatim, and a legal build has room for it. -/
theorem encPushWritesVerbatimFirst : Obligations.EncPushWritesVerbatimFirst := by
  intro s v hwf hm h0
  obtain ⟨hidx, -⟩ := hwf
  have hroom : s.index ≠ 2 ^ s.config.idxW - 1 := by
    have := Nat.pow_le_pow_right (show 0 < 2 by decide) hidx
    omega
  obtain ⟨t, ht, hpushed, hpb, hbits⟩ := exec_encPush_writes hm hroom (chooseRecord_first v h0)
  exact ⟨t, ht, hpushed, hpb, by rw [hbits, encodeRecord, ← map_range_field]⟩

/-- Settles O24: the xor with the value itself is 0, which has more trailing zeros than any threshold. -/
theorem encPushWritesExactMatch : Obligations.EncPushWritesExactMatch := by
  intro s v j hm hi hf hsel
  have hzero : v ^^^ v = 0 := BitVec.xor_self
  have hthr : s.config.brThreshold.toNat < countTrailing (v ^^^ v) := by
    rw [hzero, (countTrailing_eq_iff 0).2 rfl]
    exact s.config.brThreshold.isLt
  have hr := chooseRecord_backRef hi hsel hthr
  rw [hzero, backRefRecord_zero] at hr
  obtain ⟨t, ht, hpushed, hpb, hbits⟩ := exec_encPush_writes hm hf hr
  refine ⟨t, ht, hpushed, hpb, ?_⟩
  rw [hbits, encodeRecord, fieldBits_distance]
  simp only [List.append_assoc]

/-- Settles O25: the record is the BackRefPayload of the xor, and its length fits the field. -/
theorem encPushWritesBackRefPayload : Obligations.EncPushWritesBackRefPayload := by
  intro s v j c hm hi hf hsel hne x trail hthr b len
  have hx : x ≠ 0 := fun h0 => hne (BitVec.xor_eq_zero_iff.1 h0)
  obtain ⟨hfield, hpos⟩ := backRef_len hx (Nat.zero_lt_of_lt hthr)
  have hr := chooseRecord_backRef hi hsel hthr
  rw [backRefRecord_of_ne_zero _ hx] at hr
  obtain ⟨t, ht, hpushed, hpb, hbits⟩ := exec_encPush_writes hm hf hr
  refine ⟨hpos, by omega, t, ht, hpushed, hpb, ?_⟩
  have hlen : (BitVec.ofNat 6 len).zeroExtend 64 = BitVec.ofNat 64 len :=
    BitVec.eq_of_toNat_eq (by simp; omega)
  rw [hbits, encodeRecord, fieldBits_distance, hfield, hlen]
  simp only [List.append_assoc]
  rfl

/-- Settles O26: the record is the one of the xor with the predecessor, by the two cases of `PB`. -/
theorem encPushWritesPrevRecord : Obligations.EncPushWritesPrevRecord := by
  intro s v j c p hm hi hf hsel hthr hp x b
  have hr := chooseRecord_prev hi hsel hthr hp
  by_cases hpb : s.pb = some b
  case pos =>
    rw [prevRecord_of_same hpb] at hr
    obtain ⟨t, ht, hpushed, hpb', hbits⟩ := exec_encPush_writes hm hf hr
    refine ⟨t, ht, hpushed, hpb'.trans hpb, fun _ => ?_, fun hnew => absurd hpb hnew⟩
    rw [hbits, encodeRecord, hpb, List.append_assoc]
    rfl
  case neg =>
    rw [prevRecord_of_new hpb] at hr
    obtain ⟨t, ht, hpushed, hpb', hbits⟩ := exec_encPush_writes hm hf hr
    refine ⟨t, ht, hpushed, hpb', fun hsame => absurd hsame hpb, fun _ => ?_⟩
    rw [hbits, encodeRecord]
    simp only [List.append_assoc]
    rfl

/-- Settles O27: what is remembered lets a record be chosen. -/
theorem encoderNeverFaults : Obligations.EncoderNeverFaults := by
  intro s v hs hm hf
  obtain ⟨hist, hrem⟩ := hs.remembers
  obtain ⟨r, hr⟩ := hrem.chooseRecord_total v
  obtain ⟨t, ht, hpushed, -⟩ := exec_encPush_writes hm hf hr
  exact ⟨t, ht, hpushed⟩

/-! ## Whole bytes -/

/-- `OUT_LEN` and the length of `OUT` move together (20 R53). -/
theorem putBit_outLen (b : Bool) (s : State) :
    (putBit b s).outLen - BitVec.ofNat 64 (putBit b s).out.length = s.outLen - BitVec.ofNat 64 s.out.length := by
  by_cases h : s.wfill.toNat = 7
  · rw [putBit_of_eighth b h, appendByte_outLen, appendByte_out, ← ofNat_length_append]
    exact add_sub_add_right_eq_sub ..
  · rw [putBit_of_room b (by have := s.wfill.isLt; omega)]

theorem putBits_outLen (x : Value) (n : Nat) (s : State) :
    (putBits x n s).outLen - BitVec.ofNat 64 (putBits x n s).out.length = s.outLen - BitVec.ofNat 64 s.out.length := by
  induction n generalizing s with
  | zero => rfl
  | succ n ih => exact (ih _).trans (putBit_outLen _ s)

/-- Eight bytes whose bits are those of a value are its bytes, most significant first (20 R56). -/
theorem bytes_of_value {l : List Byte} {v : Value} (hl : l.length = 8) (h : l.flatMap byteBits = fieldBits 64 v) :
    l = (List.range 8).map (fun n => v.extractLsb' (56 - 8 * n) 8) := by
  refine List.ext_getElem (by simp [hl]) fun n hn _ => BitVec.eq_of_getLsbD_eq fun i hi => ?_
  have hbit := flatMap_byteBits_getElem? l (8 * n + (7 - i))
  rw [h, fieldBits_getElem (by omega), show (8 * n + (7 - i)) / 8 = n by omega, List.getElem?_eq_getElem hn,
    Option.map_some, Option.some.injEq, show 7 - (8 * n + (7 - i)) % 8 = i by omega] at hbit
  rw [← hbit, List.getElem_map, List.getElem_range, BitVec.getLsbD_extractLsb', decide_eq_true hi, Bool.true_and]
  congr 1
  omega

/-- Settles O15: the 64 bits written make eight bytes more, with no bit left over. -/
theorem rawValueIsBigEndian : Obligations.RawValueIsBigEndian := by
  intro v s h0
  obtain ⟨l, hout⟩ : s.out <+: (putRawValue v s).out := putBits_out v 64 s
  have hbits : bitsWritten (putRawValue v s) = bitsWritten s ++ fieldBits 64 v := bitsWritten_putBits v 64 s
  have hcount := congrArg List.length hbits
  rw [List.length_append, fieldBits_length, bitsWritten_length, bitsWritten_length, ← hout, List.length_append,
    h0] at hcount
  have hlt : (putRawValue v s).wfill.toNat < 8 := (putRawValue v s).wfill.isLt
  have hzero : (0 : BitVec 3).toNat = 0 := rfl
  have hfill : (putRawValue v s).wfill = 0 := BitVec.eq_of_toNat_eq (by omega)
  have hlen : l.length = 8 := by omega
  rw [bitsWritten_of_boundary h0, bitsWritten_of_boundary hfill, ← hout, List.flatMap_append] at hbits
  refine ⟨?_, hfill, ?_⟩
  · rw [← hout, bytes_of_value hlen (List.append_cancel_left hbits)]
  · have hmove := putBits_outLen v 64 s
    rw [← putRawValue, ← hout, List.length_append, hlen, BitVec.ofNat_add, sub_eq_iff_eq_add] at hmove
    rw [hmove, ← add_assoc, sub_add_cancel]
    rfl

end Sys2Proof.Machine

/-!
DEC_PULL and the records it executes (44 R212 to R221): a pull does what the record it fetched does, and each record in
its place answers its value, faults, or stops by name; outside its place or its job it is refused or rejected.
-/

namespace Sys2Proof.Machine

/-! ## A pull is the record it fetches -/

/-- Settles O34: the two have the same rejects, and what was fetched is in its place and ends at its length
(`decodedRecordIsSpelled`). -/
theorem pullExecutesTheFetchedRecord : Obligations.PullExecutesTheFetchedRecord := by
  intro s r pos h
  obtain ⟨-, hctx, -, hpos⟩ := decodedRecordIsSpelled _ _ _ _ _ _ h
  refine ⟨?_, hpos⟩
  rw [exec_toInstr]
  cases hg : pullReject s with
  | some st => simp only [exec, execDecPull, execRecord, hg]
  | none => simp only [exec, execDecPull, execRecord, hg, h, fits_inPlace hctx, if_true, hpos]

/-- Settles O35: the pull is the record spelled there, which has a value (`WindowPopulated.recordValue`). -/
theorem pullCompletes : Obligations.PullCompletes := by
  intro s r hc hwf hctx hspell hwindow
  obtain ⟨v, hv⟩ := WindowPopulated.recordValue hwindow hctx
  obtain ⟨hpull, -⟩ := pullExecutesTheFetchedRecord s r _ (decodeRecord_spelled hwf hctx hspell)
  rw [hpull, encodeRecord_length]
  exact ⟨v, exec_record_pulled hc (fits_inPlace hctx) hv⟩

/-! ## Each record in its place -/

/-- Settles O36: a Verbatim is its own value. -/
theorem verbatimReturnsItsValue : Obligations.VerbatimReturnsItsValue := fun _ v hc h0 =>
  exec_record_pulled (r := .verbatim v) hc (beq_iff_eq.2 h0) rfl

/-- Every record but Verbatim stands after the first value (30 R81, R82). -/
theorem inPlace_of_not_verbatim {r : Record} (i : Nat) (hr : ∀ v, r ≠ .verbatim v) : inPlace r i = (i != 0) := by
  cases r with
  | verbatim v => exact absurd rfl (hr v)
  | exactMatch _ | backRefPayload _ _ _ _ | prevSameBin _ | prevNewBin _ _ => rfl

theorem inPlace_after_first {r : Record} {i : Nat} (hi : 1 ≤ i) (hr : ∀ v, r ≠ .verbatim v) : inPlace r i = true :=
  (inPlace_of_not_verbatim i hr).trans (bne_iff_ne.2 (Nat.ne_of_gt hi))

/-- A BackRefPayload takes the stop of its reference (44 R215). -/
theorem backRefValue_error {s : State} {dist : BitVec 7} {e : ReadStop} (b : Bin) (len : BitVec 6) (p : Value)
    (h : referenced dist s = .error e) : backRefValue dist b len p s = .error e := by
  simp only [backRefValue, h]

/-- A bin and length past 64 is a violation (44 R217). -/
theorem backRefValue_long {s : State} {dist : BitVec 7} {b : Bin} {len : BitVec 6} {r : Value} (p : Value)
    (h : referenced dist s = .ok r) (hlen : 64 < binValue b + len.toNat) :
    backRefValue dist b len p s = .error (.violation .badLength) := by
  simp only [backRefValue, h, if_pos hlen]

theorem backRefValue_ok {s : State} {dist : BitVec 7} {b : Bin} {len : BitVec 6} {r : Value} (p : Value)
    (h : referenced dist s = .ok r) (hlen : binValue b + len.toNat ≤ 64) :
    backRefValue dist b len p s = .ok (r ^^^ payloadXor b len p) := by
  simp only [backRefValue, h, if_neg (Nat.not_lt.2 hlen)]

/-- Settles O38: the distance is checked with the reference, then the length, and then there is a value. -/
theorem backRefPayloadReturnsTheXor : Obligations.BackRefPayloadReturnsTheXor := by
  intro s dist b len p hc hi
  have hp : inPlace (.backRefPayload dist b len p) s.index = true := inPlace_after_first hi nofun
  refine ⟨fun r hd hr => ⟨fun hlen => ?value, fun hlen => ?long⟩, fun hd => ?pastIndex0⟩
  case value => exact exec_record_pulled hc hp (backRefValue_ok p (referenced_ok hd hr) hlen)
  case long => exact exec_record_violation hc hp (backRefValue_long p (referenced_ok hd hr) hlen)
  case pastIndex0 => exact exec_record_violation hc hp (backRefValue_error b len p (referenced_bad hd))

/-- Settles O39: with the predecessor in its slot, PrevNewBin has a value, and PrevSameBin has one where there is a
`PB`. -/
theorem prevRecordsReturnTheXor : Obligations.PrevRecordsReturnTheXor := by
  intro s x p hc hi hread
  have hpred : predecessor s = .ok p := predecessor_ok hread
  have hsame : inPlace (.prevSameBin x) s.index = true := inPlace_after_first hi nofun
  refine ⟨fun b hpb => ?same, fun hpb => ?noBin, fun b => ?new⟩
  case same =>
    have hb := binValue_le b
    have hlen : recordLength s.pb (.prevSameBin x) = 66 - binValue b := by
      simp only [recordLength, sameBinWidth, hpb]
      omega
    exact hlen ▸ exec_record_pulled hc hsame (by simp only [recordValue, prevSameValue, hpred, hpb])
  case noBin =>
    exact exec_record_violation hc hsame (by simp only [recordValue, prevSameValue, hpred, hpb])
  case new =>
    have hb := binValue_le b
    have hlen : recordLength s.pb (.prevNewBin b x) = 69 - binValue b := by
      simp only [recordLength]
      omega
    exact hlen ▸ exec_record_pulled (r := .prevNewBin b x) hc (inPlace_after_first hi nofun)
      (by simp only [recordValue, prevNewValue, hpred])

/-! ## Stops by name (log 8, log 9) -/

/-- A record out of its place is refused. -/
theorem exec_outOfPlace {s : State} {r : Record} (hc : CanPull s) (hp : inPlace r s.index = false) :
    exec r.toInstr s = .refused .recordOutOfPlace := by
  simp [exec_toInstr, execRecord, canPull_iff.1 hc, hp]

/-- A record that refers to an unpopulated slot is stuck. -/
theorem exec_record_absentSlot {s : State} {r : Record} {k : Nat} (hc : CanPull s) (hp : inPlace r s.index = true)
    (hv : recordValue r s = .error (.absentSlot k)) : exec r.toInstr s = .fault .unpopulatedSlot := by
  rw [exec_inPlace hc hp, completeRecord, hv]
  rfl

theorem predecessor_absent {s : State} (h : Table.read s.ring (slotOf (s.index - 1)) = none) :
    predecessor s = .error (.absentSlot (slotOf (s.index - 1))) := by
  simp only [predecessor, h]

/-- A record whose first bit cannot be read stops there. -/
theorem decodeRecord_stops_at_first {src : BitSource} {pos : Nat} {e : ReadStop} (index : Nat) (pb : Option Bin)
    (h : src pos = .error e) : decodeRecord src index pb pos = .error e := by
  by_cases h0 : index = 0
  · simp [decodeRecord, h0, decodeVerbatim, readBits, h, bind, Except.bind]
  · simp [decodeRecord, h0, h, bind, Except.bind]

theorem inputBit_unfed {s : State} {p : Nat} (hp : p < 8 * s.inLen) (hr : Table.read s.inMem (p / 8) = none) :
    inputBit s p = .error (.absentByte (p / 8)) := by
  simp [inputBit, hr, Nat.not_le.2 hp]

/-- A pull whose next byte was never fed is stuck. -/
theorem execDecPull_unfed {s : State} (hc : CanPull s) (hp : s.rdPos.toNat < 8 * s.inLen)
    (hr : Table.read s.inMem (s.rdPos.toNat / 8) = none) : exec .decPull s = .fault .unwrittenInput := by
  have hfetch := decodeRecord_stops_at_first s.index s.pb (inputBit_unfed hp hr)
  simp only [exec, execDecPull, canPull_iff.1 hc, fetchRecord, hfetch]
  rfl

/-- A push whose selector is stuck is stuck. -/
theorem execEncPush_stuck {s : State} {v : Value} {f : Fault} (hm : s.mode = .enc) (hi : 1 ≤ s.index)
    (hf : s.index ≠ 2 ^ s.config.idxW - 1) (hsel : select s v s.index = .error f) :
    exec (.encPush v) s = .fault f := by
  have hr : chooseRecord s v = .error f := by simp [chooseRecord, Nat.ne_of_gt hi, hsel, bind, Except.bind]
  simp [exec, execEncPush, hm, indexFull, hf, hr]

theorem select_lookupAhead {s : State} {v : Value} {i j : Nat} (he : Table.read s.lut (hashOf v) = some j)
    (h : i ≤ j) : select s v i = .error .lookupAhead := by
  simp only [select, he, if_pos h]

theorem select_absentSlot {s : State} {v : Value} {i j : Nat} (he : Table.read s.lut (hashOf v) = some j)
    (hlt : j < i) (hw : i - j ≤ 128) (hr : Table.read s.ring (slotOf j) = none) :
    select s v i = .error .unpopulatedSlot := by
  simp only [select, he, if_neg (Nat.not_le.2 hlt), if_pos hw, ringAt, hr]
  rfl

/-- Settles O33, stop by stop. -/
theorem stuckStatesStopByName : Obligations.StuckStatesStopByName := by
  refine fun s => ⟨fun hc => ⟨fun hi v => ?verbatim, fun h0 r hr => ?other, fun hi hread b x => ?pred,
    fun hi dist hd hread b len p => ?ref, execDecPull_unfed hc⟩, fun hm hi hf v j he =>
    ⟨fun hahead => ?ahead, fun hlt hw hread => ?slot⟩⟩
  case verbatim => exact exec_outOfPlace (r := .verbatim v) hc (beq_eq_false_iff_ne.2 (Nat.ne_of_gt hi))
  case other =>
    exact exec_outOfPlace hc (by rw [inPlace_of_not_verbatim _ hr, h0]; rfl)
  case pred =>
    have hpred := predecessor_absent hread
    have hsame : recordValue (.prevSameBin x) s = .error (.absentSlot (slotOf (s.index - 1))) := by
      simp only [recordValue, prevSameValue, hpred]
    have hnew : recordValue (.prevNewBin b x) s = .error (.absentSlot (slotOf (s.index - 1))) := by
      simp only [recordValue, prevNewValue, hpred]
    exact ⟨exec_record_absentSlot (r := .prevSameBin x) hc (inPlace_after_first hi nofun) hsame,
      exec_record_absentSlot (r := .prevNewBin b x) hc (inPlace_after_first hi nofun) hnew⟩
  case ref =>
    have href := referenced_absent hd hread
    exact ⟨exec_record_absentSlot (r := .exactMatch dist) hc (inPlace_after_first hi nofun) href,
      exec_record_absentSlot (r := .backRefPayload dist b len p) hc (inPlace_after_first hi nofun)
        (backRefValue_error b len p href)⟩
  case ahead => exact execEncPush_stuck hm hi hf (select_lookupAhead he hahead)
  case slot => exact execEncPush_stuck hm hi hf (select_absentSlot he hlt hw hread)

/-! ## The rejects (44 R212, 60 R268) -/

theorem pullReject_countExhausted {s : State} (hm : s.mode = .decLoad ∨ s.mode = .decRun) (h0 : s.remaining = 0) :
    pullReject s = some .countExhausted := by
  rw [pullReject, if_neg fun ⟨hload, hrun⟩ => hm.elim hload hrun, if_pos h0]

theorem pullReject_indexFull {s : State} (hm : s.mode = .decLoad ∨ s.mode = .decRun) (h0 : s.remaining ≠ 0)
    (hf : s.index = 2 ^ s.config.idxW - 1) : pullReject s = some .indexFull := by
  rw [pullReject, if_neg fun ⟨hload, hrun⟩ => hm.elim hload hrun, if_neg h0,
    if_pos (show indexFull s = true from beq_iff_eq.2 hf)]

/-- DEC_PULL and the records it executes have the rejects of `pullReject` (log 10). -/
theorem exec_pullReject {i : Instr} {s : State} {st : Status} (hi : i = .decPull ∨ ∃ r : Record, i = r.toInstr)
    (h : pullReject s = some st) : exec i s = .next (reject st s) := by
  rcases hi with rfl | ⟨r, rfl⟩
  · simp only [exec, execDecPull, h]
  · simp only [exec_toInstr, execRecord, h]

/-- Settles O32: the rejects of a push by its two tests, those of a pull and of the records by `pullReject`. -/
theorem jobRejectsComeInOrder : Obligations.JobRejectsComeInOrder := by
  intro s v answer
  refine ⟨fun hm => if_pos hm, fun hm hf => ?_, fun i hi => ⟨fun hload hrun => ?_, fun hm h0 => ?_, fun hm h0 hf => ?_⟩⟩
  · exact (if_neg (not_not.2 hm)).trans (if_pos (beq_iff_eq.2 hf))
  · exact exec_pullReject hi (pullReject_wrongMode_iff.2 ⟨hload, hrun⟩)
  · exact exec_pullReject hi (pullReject_countExhausted hm h0)
  · exact exec_pullReject hi (pullReject_indexFull hm h0 hf)

end Sys2Proof.Machine

/-!
The faults of a fetch (60 R264 to R268). A violation is found as soon as the bits it needs are read, and a record cut
short by the end of the input stops there, whichever of its parts the cut falls in.
-/

namespace Sys2Proof.Machine

/-- The bin code spelled is read back as its bin. -/
theorem decodeBin_lowBits (b : Bin) : decodeBin ((lowBits 3 ((encodeBin b).zeroExtend 64)).truncate 3) = b := by
  rw [truncate_lowBits (by decide), decodeBin_encodeBin]

/-! ## Violations -/

/-- The distance is checked before the second control bit is read (44 R215). -/
theorem decodeBackRef_badDistance {src : BitSource} {index pos : Nat} {dist : BitVec 7}
    (hd : index < distanceOf dist) (h : Spells src pos (fieldBits 7 (dist.zeroExtend 64))) :
    decodeBackRef src index pos = .error (.violation .badDistance) := by
  refine bind_error.2 (.inr ⟨_, readBits_spelled h, ?_⟩)
  dsimp only
  rw [truncate_lowBits (by decide), if_pos hd]

/-- The bin and the length are checked before the payload is read (44 R217). -/
theorem decodeBackRefPayload_badLength {src : BitSource} (dist : BitVec 7) {pos : Nat} {b : Bin} {len : BitVec 6}
    (hlong : 64 < binValue b + len.toNat)
    (h : Spells src pos (fieldBits 3 ((encodeBin b).zeroExtend 64) ++ fieldBits 6 (len.zeroExtend 64))) :
    decodeBackRefPayload src dist pos = .error (.violation .badLength) := by
  obtain ⟨hcode, hlen⟩ := spells_append.1 h
  rw [fieldBits_length] at hlen
  refine bind_error.2 (.inr ⟨_, readBits_spelled hcode, bind_error.2 (.inr ⟨_, readBits_spelled hlen, ?_⟩)⟩)
  dsimp only
  rw [decodeBin_lowBits, lowBits_len, if_pos hlong]

/-- `PB` is checked after the second control bit and before the payload (44 R219). -/
theorem decodePrev_noPrevBin {src : BitSource} {pos : Nat} (h : src pos = .ok false) :
    decodePrev src none pos = .error (.violation .noPrevBin) :=
  bind_error.2 (.inr ⟨false, h, rfl⟩)

/-- Settles O40: the fetch finds each violation with the bits given, whatever follows them. -/
theorem faultsComeInStreamOrder : Obligations.FaultsComeInStreamOrder := by
  intro s hc hi faults
  refine ⟨fun dist hd hspell => ?distance, fun dist b len hd hlong hspell => ?length, fun hpb hspell => ?noBin⟩
  case distance =>
    obtain ⟨hbranch, hrest⟩ := decodeRecord_spelled_branch (pb := s.pb) hi hspell
    exact execDecPull_violation hc (hbranch.trans (decodeBackRef_badDistance hd hrest))
  case length =>
    simp only [List.append_assoc, List.singleton_append] at hspell
    obtain ⟨hbranch, hrest⟩ := decodeRecord_spelled_branch (pb := s.pb) hi hspell
    obtain ⟨hdist, hfields⟩ := decodeBackRef_spelled hd hrest
    exact execDecPull_violation hc (hbranch.trans (hdist.trans (decodeBackRefPayload_badLength dist hlong hfields)))
  case noBin =>
    obtain ⟨hbranch, hrest⟩ := decodeRecord_spelled_branch (pb := s.pb) hi hspell
    refine execDecPull_violation hc (hbranch.trans ?_)
    rw [hpb]
    exact decodePrev_noPrevBin (spells_singleton.1 hrest)

/-! ## A record of which the input holds only a part -/

section
variable {src : BitSource} {pos stop : Nat} {e : ReadStop} {α : Type} {bits : List Bool}

/-- A bit that the input may not hold, and what follows it when it does. -/
theorem bind_bit_cut {f : Bool → Except ReadStop α} {b : Bool} (hE : ∀ q, stop ≤ q → src q = .error e)
    (hle : pos ≤ stop) (hspell : Spells src pos ((b :: bits).take (stop - pos)))
    (hrest : pos + 1 ≤ stop → Spells src (pos + 1) (bits.take (stop - (pos + 1))) → f b = .error e) :
    (src pos >>= f) = .error e := by
  rcases bit_or_stop hE hle hspell with he | ⟨hb, hle, hspell⟩
  · exact bind_error.2 (.inl he)
  · exact bind_error.2 (.inr ⟨b, hb, hrest hle hspell⟩)

/-- A field that the input may hold only a part of, and what follows it when it is there. -/
theorem bind_field_cut {f : Value × Nat → Except ReadStop α} {n : Nat} {x : Value}
    (hE : ∀ q, stop ≤ q → src q = .error e) (hle : pos ≤ stop)
    (hspell : Spells src pos ((fieldBits n x ++ bits).take (stop - pos)))
    (hrest : pos + n ≤ stop → Spells src (pos + n) (bits.take (stop - (pos + n))) →
      f (lowBits n x, pos + n) = .error e) :
    (readBits src n pos 0 >>= f) = .error e := by
  rcases field_or_stop hE hle hspell with he | ⟨hx, hle, hspell⟩
  · exact bind_error.2 (.inl he)
  · exact bind_error.2 (.inr ⟨_, hx, hrest hle hspell⟩)

theorem decodeBackRefPayload_cut {b : Bin} {len : BitVec 6} {p : Value} (dist : BitVec 7)
    (hE : ∀ q, stop ≤ q → src q = .error e) (hle : pos ≤ stop) (hlt : stop < pos + 9 + len.toNat)
    (hfit : binValue b + len.toNat ≤ 64)
    (hspell : Spells src pos ((fieldBits 3 ((encodeBin b).zeroExtend 64) ++ (fieldBits 6 (len.zeroExtend 64) ++
      fieldBits len.toNat p)).take (stop - pos))) :
    decodeBackRefPayload src dist pos = .error e := by
  refine bind_field_cut hE hle hspell fun hle hspell => bind_field_cut hE hle hspell fun hle hspell => ?_
  dsimp only
  rw [decodeBin_lowBits, lowBits_len, if_neg (Nat.not_lt.2 hfit)]
  exact bind_error.2 (.inl (readBits_cut hE hspell hle (by omega)))

/-- The back-reference branch is cut where what follows its second control bit is. -/
theorem decodeBackRef_cut {index : Nat} {dist : BitVec 7} {c2 : Bool} (hE : ∀ q, stop ≤ q → src q = .error e)
    (hle : pos ≤ stop) (hd : distanceOf dist ≤ index)
    (hspell : Spells src pos ((fieldBits 7 (dist.zeroExtend 64) ++ c2 :: bits).take (stop - pos)))
    (hrest : pos + 8 ≤ stop → Spells src (pos + 8) (bits.take (stop - (pos + 8))) →
      (if c2 then decodeBackRefPayload src dist (pos + 8) else .ok (.exactMatch dist, pos + 8)) = .error e) :
    decodeBackRef src index pos = .error e := by
  refine bind_field_cut hE hle hspell fun hle hspell => ?_
  dsimp only
  rw [truncate_lowBits (by decide), if_neg (Nat.not_lt.2 hd)]
  exact bind_bit_cut hE hle hspell hrest

theorem decodePrev_cut_new {b : Bin} {x : Value} (pb : Option Bin) (hE : ∀ q, stop ≤ q → src q = .error e)
    (hle : pos ≤ stop) (hlt : stop < pos + 4 + (64 - binValue b))
    (hspell : Spells src pos ((true :: (fieldBits 3 ((encodeBin b).zeroExtend 64) ++
      fieldBits (64 - binValue b) x)).take (stop - pos))) :
    decodePrev src pb pos = .error e := by
  refine bind_bit_cut hE hle hspell fun hle hspell => bind_field_cut hE hle hspell fun hle hspell => ?_
  dsimp only
  rw [decodeBin_lowBits]
  exact bind_error.2 (.inl (readBits_cut hE hspell hle (by omega)))

theorem decodePrev_cut_same {b : Bin} {x : Value} (hE : ∀ q, stop ≤ q → src q = .error e) (hle : pos ≤ stop)
    (hlt : stop < pos + 1 + (64 - binValue b))
    (hspell : Spells src pos ((false :: fieldBits (64 - binValue b) x).take (stop - pos))) :
    decodePrev src (some b) pos = .error e :=
  bind_bit_cut hE hle hspell fun hle hspell => bind_error.2 (.inl (readBits_cut hE hspell hle hlt))

/-- After the first value a record is cut where the branch of its first control bit is. -/
theorem decodeRecord_cut_branch {index : Nat} {pb : Option Bin} {c1 : Bool} (hE : ∀ q, stop ≤ q → src q = .error e)
    (hle : pos ≤ stop) (hi : 1 ≤ index) (hspell : Spells src pos ((c1 :: bits).take (stop - pos)))
    (hrest : pos + 1 ≤ stop → Spells src (pos + 1) (bits.take (stop - (pos + 1))) →
      (if c1 then decodePrev src pb (pos + 1) else decodeBackRef src index (pos + 1)) = .error e) :
    decodeRecord src index pb pos = .error e := by
  rw [decodeRecord, if_neg (Nat.ne_of_gt hi)]
  exact bind_bit_cut hE hle hspell hrest

/-- A record cut short by the end of the input stops there (30 R94 (a)). -/
theorem decodeRecord_cut {index : Nat} {pb : Option Bin} {r : Record} (hE : ∀ q, stop ≤ q → src q = .error e)
    (hle : pos ≤ stop) (hlt : stop < pos + recordLength pb r) (hctx : r.fitsContext index pb = true)
    (hspell : Spells src pos ((encodeRecord pb r).take (stop - pos))) :
    decodeRecord src index pb pos = .error e := by
  cases r with
  | verbatim v =>
    rw [decodeRecord, if_pos (by simpa [Record.fitsContext] using hctx)]
    exact bind_error.2 (.inl (readBits_cut hE hspell hle hlt))
  | exactMatch d =>
    simp only [Record.fitsContext, Bool.and_eq_true, decide_eq_true_eq] at hctx
    obtain ⟨hi, hd⟩ := hctx
    refine decodeRecord_cut_branch hE hle hi hspell fun hle hspell =>
      decodeBackRef_cut hE hle hd hspell fun hle _ => absurd hlt ?_
    simp only [recordLength]
    omega
  | backRefPayload d b len p =>
    simp only [Record.fitsContext, Bool.and_eq_true, decide_eq_true_eq] at hctx
    obtain ⟨⟨hi, hd⟩, hfit⟩ := hctx
    simp only [encodeRecord, List.append_assoc, List.singleton_append] at hspell
    refine decodeRecord_cut_branch hE hle hi hspell fun hle hspell =>
      decodeBackRef_cut hE hle hd hspell fun hle hspell => decodeBackRefPayload_cut d hE hle ?_ hfit hspell
    simp only [recordLength] at hlt
    omega
  | prevSameBin x =>
    cases pb with
    | none => simp [Record.fitsContext] at hctx
    | some b =>
      simp only [Record.fitsContext, Bool.and_eq_true, decide_eq_true_eq] at hctx
      obtain ⟨hi, -⟩ := hctx
      refine decodeRecord_cut_branch hE hle hi hspell fun hle hspell => decodePrev_cut_same hE hle ?_ hspell
      simp only [recordLength, sameBinWidth] at hlt
      omega
  | prevNewBin b x =>
    refine decodeRecord_cut_branch hE hle (of_decide_eq_true hctx) hspell fun hle hspell =>
      decodePrev_cut_new pb hE hle ?_ hspell
    simp only [recordLength] at hlt
    omega

end

/-- Settles O41: past the end of the input every bit is `READ_OOB` (`inputBit_past`), where the fetch is cut. -/
theorem truncatedRecordReadsOutOfBounds : Obligations.TruncatedRecordReadsOutOfBounds := by
  intro s r hc _ hctx hle hlt hspell
  rw [encodeRecord_length] at hlt
  exact execDecPull_violation hc (decodeRecord_cut (fun _ => inputBit_past) hle hlt hctx hspell)

end Sys2Proof.Machine

/-!
What the decoder does not look at, and what no instruction does (44 R225, 10 R21, R31, 20 R53). A pull reads neither the
lookup table nor the selector's parameters; and an instruction that does not start over either keeps its place in the
job or commits one value.
-/

namespace Sys2Proof.Machine

/-! ## A pull and the selector -/

/-- Everything a pull that answers can have done, with the reject and the stop it was (44 R212); `Steps` does not say
which. -/
theorem exec_decPull_cases {s t : State} (h : exec .decPull s = .next t) :
    (∃ st, pullReject s = some st ∧ t = reject st s) ∨
    (CanPull s ∧ ∃ c, fetchRecord s = .error (.violation c) ∧ t = enterFault c s) ∨
    (CanPull s ∧ ∃ r pos, fetchRecord s = .ok (r, pos) ∧ completeRecord r pos s = .next t) := by
  cases hg : pullReject s with
  | some st =>
    rw [exec_pullReject (.inl rfl) hg] at h
    cases h
    exact .inl ⟨st, rfl, rfl⟩
  | none =>
    have hc := canPull_iff.2 hg
    cases hf : fetchRecord s with
    | error e =>
      simp only [exec, execDecPull, hg, hf] at h
      obtain ⟨c, rfl, rfl⟩ := stopAt_next h
      exact .inr (.inl ⟨hc, c, rfl, rfl⟩)
    | ok rp =>
      obtain ⟨r, pos⟩ := rp
      rw [execDecPull_fetched hc hf] at h
      exact .inr (.inr ⟨hc, r, pos, rfl, h⟩)

/-- The same state with another lookup table, threshold and tie-break. -/
def State.withSelector (lut : Table Nat) (br : BitVec 6) (tie : ScanTie) (s : State) : State :=
  { s with lut := lut, config := { s.config with brThreshold := br, scanTie := tie } }

theorem fetchRecord_withSelector (lut : Table Nat) (br : BitVec 6) (tie : ScanTie) (s : State) :
    fetchRecord (s.withSelector lut br tie) = fetchRecord s := rfl

theorem recordValue_withSelector (lut : Table Nat) (br : BitVec 6) (tie : ScanTie) (r : Record) (s : State) :
    recordValue r (s.withSelector lut br tie) = recordValue r s := by
  cases r <;> rfl

/-- A record's completion under another selector: the lookup table differs by what `update` writes, the rest is the
same. -/
theorem completeRecord_withSelector {s t : State} {r : Record} {pos : Nat} (lut : Table Nat) (br : BitVec 6)
    (tie : ScanTie) (h : completeRecord r pos s = .next t) :
    ∃ lut', completeRecord r pos (s.withSelector lut br tie) = .next (t.withSelector lut' br tie) := by
  rcases completeRecord_next h with ⟨v, hv, rfl⟩ | ⟨c, hv, rfl⟩
  · exact ⟨Table.write lut (hashOf v) s.index,
      completeRecord_value ((recordValue_withSelector lut br tie r s).trans hv)⟩
  · exact ⟨lut, completeRecord_violation ((recordValue_withSelector lut br tie r s).trans hv)⟩

/-- Settles O43: the rejects, the fetch and the value are the same under another selector. -/
theorem decoderIgnoresTheSelector : Obligations.DecoderIgnoresTheSelector := by
  intro s t lut br tie h
  change ∃ lut', exec .decPull (s.withSelector lut br tie) = .next (t.withSelector lut' br tie)
  rcases exec_decPull_cases h with ⟨st, hst, rfl⟩ | ⟨hc, c, hf, rfl⟩ | ⟨hc, r, pos, hf, hcomplete⟩
  · exact ⟨lut, exec_pullReject (.inl rfl) hst⟩
  · exact ⟨lut, execDecPull_violation hc ((fetchRecord_withSelector lut br tie s).trans hf)⟩
  · obtain ⟨lut', h'⟩ := completeRecord_withSelector lut br tie hcomplete
    have hf' := (fetchRecord_withSelector lut br tie s).trans hf
    exact ⟨lut', (execDecPull_fetched (s := s.withSelector lut br tie) hc hf').trans h'⟩

/-! ## What no instruction does -/

/-- No instruction changes the build or what the host still issues (10 R31). -/
theorem Steps.keepsBuild {i : Instr} {s t : State} (h : Steps i s t) : t.config = s.config ∧ t.port = s.port := by
  cases h with
  | encPush r _ _ _ => exact ⟨(emit_same r s).config, (emit_same r s).port⟩
  | encFinish _ => exact ⟨(finish_same s).config, (finish_same s).port⟩
  | rejected _ _ | nop | readCsr _ _ | softReset | encStart | decStart | decFeed _ _ | decEnd _ | pulled _ _ _ _ _ _
  | pullFault _ _ | executed _ _ _ _ _ | recordFault _ _ _ => exact ⟨rfl, rfl⟩

/-- The place in the job is kept: `INDEX`, and what a committed value writes with it. -/
structure SamePlace (s t : State) : Prop where
  index : t.index = s.index
  ring : t.ring = s.ring
  lut : t.lut = s.lut
  pb : t.pb = s.pb
  rdPos : t.rdPos = s.rdPos

/-- The instructions that commit a value: a push, a pull, and the records a pull executes. -/
def Commits (i : Instr) : Prop := (∃ v, i = .encPush v) ∨ i = .decPull ∨ ∃ r : Record, i = r.toInstr

/-- An instruction that does not start over keeps the place in the job, or commits one value. -/
theorem Steps.keeps_place_or_commits {i : Instr} {s t : State} (h : Steps i s t) (hi : startsOver i = false) :
    SamePlace s t ∨ (t.index = s.index + 1 ∧ Commits i) := by
  cases h with
  | softReset | encStart | decStart => nomatch hi
  | rejected _ _ | nop | readCsr _ _ | decFeed _ _ | decEnd _ | pullFault _ _ | recordFault _ _ _ =>
    exact .inl ⟨rfl, rfl, rfl, rfl, rfl⟩
  | encFinish _ =>
    have e := finish_same s
    exact .inl ⟨e.index, e.ring, e.lut, e.pb, e.rdPos⟩
  | encPush r _ _ _ => exact .inr ⟨congrArg (· + 1) (emit_same r s).index, .inl ⟨_, rfl⟩⟩
  | pulled _ _ _ _ _ _ => exact .inr ⟨rfl, .inr (.inl rfl)⟩
  | executed r _ _ _ _ => exact .inr ⟨rfl, .inr (.inr ⟨r, rfl⟩)⟩

/-- An instruction that does not start over only adds bytes to `OUT` (20 R53). -/
theorem Steps.out_grows {i : Instr} {s t : State} (h : Steps i s t) (hi : startsOver i = false) : s.out <+: t.out := by
  cases h with
  | softReset | encStart | decStart => nomatch hi
  | encPush r _ _ _ => exact emit_out r s
  | encFinish _ => exact finish_out s
  | rejected _ _ | nop | readCsr _ _ | decFeed _ _ | decEnd _ | pulled _ _ _ _ _ _ | pullFault _ _
  | executed _ _ _ _ _ | recordFault _ _ _ => exact ⟨[], List.append_nil _⟩

/-- Settles O54: the build (`Steps.keepsBuild`), the output (`Steps.out_grows`), and the place in the job. -/
theorem jobStateOnlyGrows : Obligations.JobStateOnlyGrows := by
  intro i s t h
  have hsteps := exec_steps h
  obtain ⟨hconfig, hport⟩ := hsteps.keepsBuild
  refine ⟨hconfig, hport, fun hi => ⟨hsteps.out_grows hi, ?_⟩⟩
  rcases hsteps.keeps_place_or_commits hi with e | ⟨hindex, hcommits⟩
  · exact ⟨.inl e.index, fun _ => ⟨e.ring, e.lut, e.pb, e.rdPos⟩, fun hindex => by have := e.index; omega⟩
  · exact ⟨.inr hindex, fun hsame => by omega, fun _ => hcommits⟩

end Sys2Proof.Machine

/-!
Command words, the vectors' bit strings, and the commands that open, feed and close a job (30 R97 to R101, 95, 43 R180,
R191, 44 R210, R211, R222).
-/

namespace Sys2Proof.Machine

/-! ## Command words -/

/-- The rows of the opcode map after NOP and before SOFT_RESET (30 R99), whatever their `ARG`. -/
theorem decodeCommand_opcodes (arg : BitVec 64) :
    decodeCommand (0x1#4 ++ arg) = .encStart ∧ decodeCommand (0x2#4 ++ arg) = .encPush arg ∧
    decodeCommand (0x3#4 ++ arg) = .encFinish ∧ decodeCommand (0x4#4 ++ arg) = .decStart arg ∧
    decodeCommand (0x5#4 ++ arg) = .decFeed (arg.extractLsb' 0 8) ∧ decodeCommand (0x6#4 ++ arg) = .decPull ∧
    decodeCommand (0x7#4 ++ arg) = .decEnd ∧ decodeCommand (0x8#4 ++ arg) = .readCsr arg := by
  simp [decodeCommand, extract_high, extract_low]

/-- Settles O1: the opcode map row by row, and the words of the encoder by their rows. -/
theorem commandWordsDecode : Obligations.CommandWordsDecode := by
  refine ⟨fun arg => ?map, fun i w hwf hw => ?back⟩
  case map =>
    obtain ⟨h1, h2, h3, h4, h5, h6, h7, h8⟩ := decodeCommand_opcodes arg
    exact ⟨decodeCommand_nop arg, h1, h2, h3, h4, h5, h6, h7, h8, decodeCommand_softReset arg,
      fun op hop => decodeCommand_reserved arg hop⟩
  case back =>
    cases i with
    | verbatim _ | exactMatch _ | backRefPayload _ _ _ _ | prevSameBin _ | prevNewBin _ _ => cases hw
    | nop | encStart | encPush _ | encFinish | decStart _ | decFeed _ | decPull | decEnd | readCsr _ | softReset =>
      cases hw
      simp [decodeCommand]
    | reserved op => cases hw; exact decodeCommand_reserved 0 (of_decide_eq_true hwf)

/-! ## The vectors' bit strings (95) -/

theorem spells_getD (bits : List Bool) : Spells (fun p => .ok (bits.getD p false)) 0 bits := by
  intro k b hk
  simp [List.getD_eq_getElem?_getD, hk]

/-- A string that is a record's bits decodes to that record. -/
theorem decodeRecord_of_bits {bits : List Bool} {index : Nat} {pb : Option Bin} {r : Record} (hwf : r.wf = true)
    (hctx : r.fitsContext index pb = true) (hbits : bits = encodeRecord pb r) :
    decodeRecord (fun p => .ok (bits.getD p false)) index pb 0 = .ok (r, recordLength pb r) := by
  subst hbits
  rw [decodeRecord_spelled hwf hctx (spells_getD _), Nat.zero_add]

/-- Settles O4: the four strings are the bits of their records. -/
theorem writtenRecordsDecode : Obligations.WrittenRecordsDecode := by
  refine ⟨?s4, ?a2, ?e51, ?e52⟩
  case s4 => exact decodeRecord_of_bits (r := .exactMatch 0) (by decide) (by decide) (by decide)
  case a2 => exact decodeRecord_of_bits (r := .backRefPayload 1 .b0 12 0x7FF) (by decide) (by decide) (by decide)
  case e51 => exact decodeRecord_of_bits (r := .prevNewBin .b24 1) (by decide) (by decide) (by decide)
  case e52 => exact decodeRecord_of_bits (r := .prevSameBin 2) (by decide) (by decide) (by decide)

/-! ## The commands that open, feed and close a job -/

/-- Settles O22: both commands set their mode over `clearJob`. -/
theorem startCommandsOpenAJob : Obligations.StartCommandsOpenAJob := by
  intro s count cleared
  refine ⟨⟨encStarted s, exec_encStart s, ?_, rfl⟩, decStarted count s, rfl, ?_, rfl, rfl⟩
  · simp [cleared, encStarted]
  · simp [cleared, decStarted]

/-- Settles O30: the byte fed (`exec_decFeed_of_room`), and the two tests before it. -/
theorem decFeedAppendsAByte : Obligations.DecFeedAppendsAByte := by
  refine fun s b => ⟨fun hm hc => ?fed, fun hm => if_pos hm, fun hm hc => (if_neg (not_not.2 hm)).trans (if_pos hc)⟩
  case fed => exact ⟨_, exec_decFeed_of_room b hm hc, fun a => Table.read_write s.inMem s.inLen b a, rfl⟩

/-- Settles O31: `finish` by the two cases of `WFILL`, and the tests of the mode. -/
theorem closeCommandsEndTheJob : Obligations.CloseCommandsEndTheJob := by
  refine fun s => ⟨fun hm => ?finish, fun hm => if_pos hm, fun hm => ?close, fun hload hrun => if_pos ⟨hload, hrun⟩⟩
  case finish =>
    rw [exec_encFinish_of_enc hm]
    by_cases h0 : s.wfill = 0
    · simp [finish_of_empty h0, h0, respond]
    · rw [finish_of_filled h0]
      simp only [if_neg h0]
      rfl
  case close => exact if_neg fun ⟨hload, hrun⟩ => hm.elim hload hrun

end Sys2Proof.Machine
